-- ==== Sys2Proof/Word.lean ====
section
/-! DEFINITION. The two widths of the hardware: the 8-bit data byte and the 16-bit address
(spec 00_scope.md R5: XLEN, ALEN). Every value is unsigned (R98). -/

namespace Sys2Proof

/-- An unsigned 8-bit value: a register, the status byte, a memory cell (`u8`, 00_scope.md section 7). -/
abbrev Byte := BitVec 8

/-- An unsigned 16-bit value: the program counter or an address (`u16`, 00_scope.md section 7). -/
abbrev Addr := BitVec 16

end Sys2Proof
end

