-- ==== Sys2Proof/Config.lean ====
section
/-! DEFINITION. The parameters of the hardware (spec 00_scope.md R5). The fixed ones are constants;
the three the spec keeps open are fields of `Config`, for which the machine's own choice is
`Sys2Proof.Machine.decided` (Machine/Ops.lean). There is no free value: the spec leaves no result open. -/

namespace Sys2Proof

/-- What happens at the top of the address space, 0xFFFF (`PC_TOP_POLICY`, `MEM16_TOP_POLICY`). -/
inductive TopPolicy where
  /-- raise the named fault (the decided value, D3 and D4) -/
  | fault
  /-- go on at 0x0000 -/
  | wrap
  deriving DecidableEq, Repr

/-- Where the high byte of a zero-page pointer at 0x00FF is read (`ZP_PTR_POLICY`, D5). -/
inductive ZpPtrPolicy where
  /-- from 0x0100 (the decided value) -/
  | linear
  /-- from 0x0000 -/
  | wrapPage0
  deriving DecidableEq, Repr

/-- The open parameters of R5. They are configuration, not state: they never change (10_state.md R8). -/
structure Config where
  /-- `PC_TOP_POLICY`: what advancing the program counter at 0xFFFF does (R17) -/
  pcTop : TopPolicy := .fault
  /-- `MEM16_TOP_POLICY`: what a 16-bit access at 0xFFFF does (R31) -/
  mem16Top : TopPolicy := .fault
  /-- `ZP_PTR_POLICY`: the high byte of a zero-page pointer at 0x00FF (R69) -/
  zpPtr : ZpPtrPolicy := .linear
  deriving DecidableEq, Repr

/-- `MEMSIZE`: 65536 cells, addresses 0x0000 to 0xFFFF (R5, R18). -/
def memSize : Nat := 0x10000

/-- `LOAD_BASE`: where `load` copies a program to (R5, R108). -/
def loadBase : Addr := 0x8000#16

/-- `RESET_VECTOR`: the low byte of the reset address; the high byte is at the next address (R5, R35). -/
def resetVector : Addr := 0xFFFC#16

end Sys2Proof
end

