-- ==== Sys2Proof/Syntax.lean ====
section
/-! DEFINITION. The instruction set as syntax (spec 30_encoding.md R47, opcode_table.json), the ten
addressing-mode tags (40_address_mode_resolver.md R56) and the decoder's descriptor (R49, R106). -/

namespace Sys2Proof

/-- The instructions: one constructor per row of opcode_table.json (R47). -/
inductive Instr where
  /-- `BRK`, 0x00: halt the execution loop (R86) -/
  | brk
  /-- `LDA #imm`, 0xA9: load the accumulator with the operand byte (R83) -/
  | lda (imm : Byte)
  /-- `TAX`, 0xAA: copy the accumulator to X (R84) -/
  | tax
  /-- `INX`, 0xE8: add one to X (R85) -/
  | inx
  deriving DecidableEq, Repr

/-- The operation a descriptor names (R49; port codes in R106). -/
inductive Operation where
  | brk | lda | tax | inx
  deriving DecidableEq, Repr

/-- The closed set of addressing-mode tags, in the order of R56. -/
inductive Mode where
  | immediate | zeroPage | zeroPageX | zeroPageY | absolute | absoluteX | absoluteY
  | indirectX | indirectY | noneAddressing
  deriving DecidableEq, Repr

/-- What the instruction_decoder returns for an implemented opcode (R49). -/
structure Descriptor where
  operation : Operation
  mode : Mode
  operandBytes : Nat
  deriving DecidableEq, Repr

/-- Why a byte sequence is not an instruction. -/
inductive DecodeError where
  /-- the first byte is none of the four opcodes (R48) -/
  | unimplemented (op : Byte)
  /-- the sequence ends before the instruction's last byte (never met by the fetch, which reads memory) -/
  | truncated
  deriving DecidableEq, Repr

end Sys2Proof
end

