-- ==== Sys2Proof/WellFormed.lean ====
section
/-! DEFINITION. What is well formed: instructions, mode-tag codes, descriptors and program images. -/

namespace Sys2Proof

/-- The number of operand bytes of a form with this addressing mode (R45; Immediate has 1, conflict C1). -/
def operandBytes : Mode → Nat
  | .noneAddressing => 0
  | .immediate | .zeroPage | .zeroPageX | .zeroPageY | .indirectX | .indirectY => 1
  | .absolute | .absoluteX | .absoluteY => 2

/-- An instruction is well formed. The one operand is an 8-bit immediate whose type is its bound
(R46), so there is no ill-formed instruction: every constructor answers true. -/
def Instr.wellFormed : Instr → Bool
  | .brk => true
  | .lda _ => true
  | .tax => true
  | .inx => true

/-- Codes 10 to 15 are not tags and must never be presented (R56). -/
def isModeCode (c : BitVec 4) : Bool := decide (c.toNat ≤ 9)

/-- A descriptor's operand count is the one its mode has (R45). -/
def Descriptor.wellFormed (d : Descriptor) : Bool := d.operandBytes == Sys2Proof.operandBytes d.mode

/-- A program fits between the load base and the end of memory (R109). -/
def programFits (bytes : List Byte) : Bool := decide (0x8000 + bytes.length ≤ 0x10000)

end Sys2Proof
end

