-- ==== Sys2Proof/Decode.lean ====
section
/-! DEFINITION. The instruction_decoder (spec 30_encoding.md R44 to R50), the numbers of the
addressing-mode tags and operations (R56, R106, decision D18), and the encoder. Decoding is total:
it answers an instruction with the bytes after it, or an error by name. -/

namespace Sys2Proof

/-- The 4-bit code of a mode tag (R56, decision D18). -/
def modeCode : Mode → BitVec 4
  | .immediate => 0 | .zeroPage => 1 | .zeroPageX => 2 | .zeroPageY => 3 | .absolute => 4
  | .absoluteX => 5 | .absoluteY => 6 | .indirectX => 7 | .indirectY => 8 | .noneAddressing => 9

/-- The tag of a 4-bit code. Codes 10 to 15 are not tags (R56). -/
def modeOfCode (c : BitVec 4) : Option Mode :=
  if isModeCode c then
    [Mode.immediate, .zeroPage, .zeroPageX, .zeroPageY, .absolute, .absoluteX, .absoluteY,
      .indirectX, .indirectY, .noneAddressing][c.toNat]?
  else none

/-- The 2-bit operation code of the decoder port (R106, decision D18). -/
def operationCode : Operation → BitVec 2
  | .brk => 0 | .lda => 1 | .tax => 2 | .inx => 3

/-- `decode(op)` of R49: the descriptor of an opcode byte, or `none` for "unimplemented" (R48). -/
def decodeOp (op : Byte) : Option Descriptor :=
  if op = 0x00#8 then some ⟨.brk, .noneAddressing, 0⟩
  else if op = 0xA9#8 then some ⟨.lda, .immediate, 1⟩
  else if op = 0xAA#8 then some ⟨.tax, .noneAddressing, 0⟩
  else if op = 0xE8#8 then some ⟨.inx, .noneAddressing, 0⟩
  else none

/-- Operand bytes become operands (R46): the operation with the bytes that follow its opcode. -/
def assemble (op : Operation) (rest : List Byte) : Except DecodeError (Instr × List Byte) :=
  match op with
  | .brk => .ok (.brk, rest)
  | .tax => .ok (.tax, rest)
  | .inx => .ok (.inx, rest)
  | .lda =>
    match rest with
    | imm :: rest' => .ok (.lda imm, rest')
    | [] => .error .truncated

/-- The instruction at the head of a byte sequence, and the bytes after it (R44, R50). -/
def decode : List Byte → Except DecodeError (Instr × List Byte)
  | [] => .error .truncated
  | op :: rest =>
    match decodeOp op with
    | none => .error (.unimplemented op)
    | some d => assemble d.operation rest

/-- The bytes of an instruction in address order (R47; opcode_table.json `encoding`). -/
def encode : Instr → List Byte
  | .brk => [0b00000000#8]
  | .lda imm => [0b10101001#8, imm]
  | .tax => [0b10101010#8]
  | .inx => [0b11101000#8]

/-- One hexadecimal digit. -/
def hexDigit (n : Nat) : String :=
  ["0", "1", "2", "3", "4", "5", "6", "7", "8", "9", "A", "B", "C", "D", "E", "F"].getD (n % 16) ""

/-- The assembler spelling the spec uses in its examples (R52, decision D17); it has no meaning beyond
the bytes. -/
def spelling : Instr → String
  | .brk => "BRK"
  | .lda imm => "LDA #$" ++ hexDigit (imm.toNat / 16) ++ hexDigit imm.toNat
  | .tax => "TAX"
  | .inx => "INX"

/-- The first two bytes (the longest instruction) of an instruction word of the opcode table: bit 0
is the least significant bit of the first byte, and the bits from `nbits` up are 0. -/
def tableWordBytes (nbits w : Nat) : List Byte :=
  [BitVec.ofNat 8 (w % 2 ^ nbits), BitVec.ofNat 8 (w % 2 ^ nbits / 256)]

/-- The instruction the decoder reads from an opcode-table word (`none` where it refuses). -/
def decodeTableWord (nbits w : Nat) : Option Instr :=
  match decode (tableWordBytes nbits w) with
  | .ok (i, _) => some i
  | .error _ => none

end Sys2Proof
end

