-- ==== Sys2Proof/Machine/State.lean ====
section
/-! DEFINITION. The state of the machine (spec 10_state.md R8), the fault conditions
(60_exceptions.md R116), the refusals, and the machine right after reset (R22, R23). -/

namespace Sys2Proof.Machine

/-- The 65536 cells (R18) as the list of those that differ from 0x00, in canonical form
(`Memory.wf`, Machine/Ops.lean). -/
abbrev Memory := List Host.Cell

/-- The three general registers of register_file_8bit (R9 to R11). -/
inductive Reg where
  | a | x | y
  deriving DecidableEq, Repr

/-- The run state (R19). -/
inductive RunState where
  /-- the core takes a step whenever a `run` is in progress -/
  | running
  /-- entered by decoding the break opcode; left only by reset or power-on -/
  | halted
  /-- entered by a fatal condition; left only by reset or power-on -/
  | faulted
  deriving DecidableEq, Repr

/-- The fatal conditions of R116. A step that raises one TAKES it (R124): the outcome is a next state
in `faulted`, never `Host.Outcome.fault`. A direct use of a memory primitive or of the resolver
reports it to its caller (R105, R115). -/
inductive Fault where
  /-- Raised by the step when the opcode byte is none of the four (R117). Safe: the run stops. -/
  | unimplementedOpcode (op : Byte)
  /-- Raised by the resolver for `noneAddressing` (R118); no instruction can raise it. Safe: it gives no address. -/
  | unsupportedAddressingMode (m : Mode)
  /-- Raised by `pcInc` at 0xFFFF under `PC_TOP_POLICY = fault` (R119). Safe: the run stops. -/
  | pcOverflow
  /-- Raised by a 16-bit access at 0xFFFF under `MEM16_TOP_POLICY = fault` (R120). Safe: it gives no value. -/
  | mem16AtTop
  deriving DecidableEq, Repr

/-- What has no meaning: the spec gives no step there. -/
inductive Refusal where
  /-- Raised by a dispatch arm whose instruction has no meaning yet; no arm of this model. Safe: nothing is claimed. -/
  | notModelled (mnemonic : String)
  /-- Raised by `step` and the host's `run` when the machine is Halted: no step is taken there
  (R71) and a `run` is refused (R110, D7). Safe: nothing is claimed. -/
  | runWhileHalted
  /-- Raised by `step` and the host's `run` when the machine is Faulted (R71, R110, D7). Safe:
  nothing is claimed. -/
  | runWhileFaulted
  deriving DecidableEq, Repr

/-- The whole state of the machine (R8), and nothing else (R21). -/
structure State where
  /-- `r[A]`, the accumulator (R9) -/
  a : Byte
  /-- `r[X]`, index register X (R10) -/
  x : Byte
  /-- `r[Y]`, index register Y (R11) -/
  y : Byte
  /-- `P`, the status byte: bit 7 Negative, bit 1 Zero, six storage bits (R12) -/
  p : Byte
  /-- the program counter (R16) -/
  pc : Addr
  /-- the memory `M` (R18) -/
  mem : Memory
  /-- the run state (R19) -/
  runState : RunState
  /-- the latched cause code, 0 when none (R20) -/
  faultCause : BitVec 3
  /-- the latched payload (R20) -/
  faultInfo : Byte
  deriving DecidableEq, Repr

/-- The machine after power-on and reset: power-on zeroes everything (R22), and reset then loads the
program counter from the two zero bytes of the reset vector (R23, R135). Reset itself leaves Y and
memory as they were; their values here are power-on's (log 2, log 3). -/
def State.reset : State where
  a := 0x00#8
  x := 0x00#8
  y := 0x00#8
  p := 0x00#8
  pc := 0x0000#16
  mem := []
  runState := .running
  faultCause := 0#3
  faultInfo := 0x00#8

end Sys2Proof.Machine
end

