-- ==== Sys2Proof/Machine/Alu.lean ====
section
/-! DEFINITION. The alu_8bit (spec 47_alu_8bit.md): the nine operations of R92 and no others. All
values are unsigned, carries are discarded, nothing is sign-extended (R97, R98). -/

namespace Sys2Proof.Machine

/-- `PASS8` (R96). -/
def pass8 (v : Byte) : Byte := v

/-- `ADD8`: 8-bit wrapping addition (R93). -/
def add8 (v w : Byte) : Byte := v + w

/-- `INC8` (R95). -/
def inc8 (v : Byte) : Byte := add8 v 1#8

/-- `ZEXT16`: widen with a zero upper byte (R6, R92). -/
def zext16 (v : Byte) : Addr := v.zeroExtend 16

/-- `ADD16`: 16-bit wrapping addition (R94). An 8-bit operand is zero-extended first (R92). -/
def add16 (v w : Addr) : Addr := v + w

/-- `CAT16`: the 16-bit value of a high and a low byte (R92). -/
def cat16 (hi lo : Byte) : Addr := hi ++ lo

/-- The low byte of a 16-bit value, `v[7:0]` (R30). -/
def lowByte (v : Addr) : Byte := v.extractLsb' 0 8

/-- The high byte of a 16-bit value, `v[15:8]` (R30). -/
def highByte (v : Addr) : Byte := v.extractLsb' 8 8

/-- `INC16`, `pc_inc`: advance the program counter by one (R6, R17). -/
def pcInc (c : Config) (pc : Addr) : Except Fault Addr :=
  if pc = 0xFFFF#16 then
    match c.pcTop with
    | .fault => .error .pcOverflow
    | .wrap => .ok 0x0000#16
  else .ok (pc + 1#16)

/-- `ISZERO8` (R92). -/
def isZero8 (v : Byte) : Bool := v == 0#8

/-- `MSB8` (R92). -/
def msb8 (v : Byte) : Bool := v.getLsbD 7

end Sys2Proof.Machine
end

