-- ==== Sys2Proof/Machine/Ops.lean ====
section
/-! DEFINITION. The named operations: the chosen configuration, the memory and its canonical form, the
load_store_unit (spec 20_memory.md R27 to R31), the register file (R9 to R11, R100), taking a fault
(60_exceptions.md R124) with the reset that alone leaves it (R125, R136) beside it, and the frame every
instruction runs in (41_fetch_decode_execute.md R73, R76). -/

namespace Sys2Proof.Machine

/-- The values the spec decides for its three open parameters (R5, D3 to D5); log 1. -/
def decided : Config where
  pcTop := .fault
  mem16Top := .fault
  zpPtr := .linear

/-! ### Memory cells -/

/-- What an address reads as that no write has listed: power-on makes every cell 0x00 (R22); log 3. -/
def unlistedByte : Byte := 0x00#8

/-- The byte at an address. -/
def Memory.read : Memory → Nat → Byte
  | [], _ => unlistedByte
  | (b, v) :: m, addr => if addr = b then v else Memory.read m addr

/-- Set the byte at an address, keeping the canonical form. -/
def Memory.write : Memory → Nat → Byte → Memory
  | [], addr, v => if v = unlistedByte then [] else [(addr, v)]
  | (b, w) :: m, addr, v =>
    if addr < b then (if v = unlistedByte then (b, w) :: m else (addr, v) :: (b, w) :: m)
    else if addr = b then (if v = unlistedByte then m else (addr, v) :: m)
    else (b, w) :: Memory.write m addr v

/-- Every listed address lies above the given one. -/
def Memory.allAbove (lo : Nat) : Memory → Bool
  | [] => true
  | (b, _) :: m => decide (lo < b) && Memory.allAbove lo m

/-- The canonical form: addresses strictly rising and below 0x10000, no entry equal to what an
unlisted address reads as. -/
def Memory.wf : Memory → Bool
  | [] => true
  | (b, v) :: m =>
    decide (b < memSize) && decide (v ≠ unlistedByte) && Memory.allAbove b m && Memory.wf m

/-! ### Updates of one field -/

def State.setPc (s : State) (v : Addr) : State := { s with pc := v }
def State.setStatus (s : State) (v : Byte) : State := { s with p := v }
def State.setMem (s : State) (m : Memory) : State := { s with mem := m }
def State.setRunState (s : State) (r : RunState) : State := { s with runState := r }
/-- Both fields of the fault latch (R20). -/
def State.setLatch (s : State) (cause : BitVec 3) (info : Byte) : State :=
  { s with faultCause := cause, faultInfo := info }

/-! ### The register file -/

/-- Read one general register (R100). -/
def readReg (s : State) : Reg → Byte
  | .a => s.a
  | .x => s.x
  | .y => s.y

/-- Write one general register (R100). -/
def writeReg (s : State) (r : Reg) (v : Byte) : State :=
  match r with
  | .a => { s with a := v }
  | .x => { s with x := v }
  | .y => { s with y := v }

/-! ### The load_store_unit -/

/-- `MemRead(addr, 1)` (R27). -/
def memRead1 (s : State) (addr : Addr) : Byte := s.mem.read addr.toNat

/-- `MemWrite(addr, 1, v)` (R28). -/
def memWrite1 (s : State) (addr : Addr) (v : Byte) : State := s.setMem (s.mem.write addr.toNat v)

/-- The two bytes at `addr` and `addr + 1` as a little-endian value, the address taken modulo 65536. -/
def wordAt (s : State) (addr : Addr) : Addr := cat16 (memRead1 s (addr + 1#16)) (memRead1 s addr)

/-- Write a little-endian value at `addr` and `addr + 1`, low byte first (R30, D16), the address taken
modulo 65536. -/
def setWordAt (s : State) (addr : Addr) (v : Addr) : State :=
  memWrite1 (memWrite1 s addr (lowByte v)) (addr + 1#16) (highByte v)

/-- `MemRead(addr, 2)` (R29, R31). -/
def memRead2 (c : Config) (s : State) (addr : Addr) : Except Fault Addr :=
  if addr = 0xFFFF#16 ∧ c.mem16Top = .fault then .error .mem16AtTop else .ok (wordAt s addr)

/-- `MemWrite(addr, 2, v)` (R30, R31). -/
def memWrite2 (c : Config) (s : State) (addr : Addr) (v : Addr) : Except Fault State :=
  if addr = 0xFFFF#16 ∧ c.mem16Top = .fault then .error .mem16AtTop else .ok (setWordAt s addr v)

/-! ### Taking a fault, and leaving it -/

/-- The cause code of a fault (R116, D9). -/
def faultCode : Fault → BitVec 3
  | .unimplementedOpcode _ => 1
  | .unsupportedAddressingMode _ => 2
  | .pcOverflow => 3
  | .mem16AtTop => 4

/-- The payload of a fault (R116, R20). -/
def faultPayload : Fault → Byte
  | .unimplementedOpcode op => op
  | .unsupportedAddressingMode m => (modeCode m).zeroExtend 8
  | .pcOverflow => 0x00#8
  | .mem16AtTop => 0x00#8

/-- Fault entry (R124): the run state and the latch are written, everything else keeps the value it
had in the state given, which is the one at the start of the step. -/
def enterFault (f : Fault) (s : State) : State :=
  (s.setRunState .faulted).setLatch (faultCode f) (faultPayload f)

/-- Reset (R136): the only way out of Faulted and Halted but power-on (R125, R142); no instruction
returns from a fault. Y and memory are not written (R137). -/
def hostReset (s : State) : State :=
  ((((writeReg (writeReg s .a 0x00#8) .x 0x00#8).setStatus 0x00#8).setPc
    (wordAt s resetVector)).setRunState .running).setLatch 0#3 0x00#8

/-! ### The frame of one instruction -/

/-- One step's work from the fetch's advance on: advance the program counter past the opcode byte
(R73), do `body` there, and if either raises, take the fault with the state of the start of the step
(R7, R124). -/
def atomically (c : Config) (s : State) (body : State → Except Fault State) :
    Host.Outcome State Fault Refusal :=
  match pcInc c s.pc with
  | .error f => .next (enterFault f s)
  | .ok pc =>
    match body (s.setPc pc) with
    | .error f => .next (enterFault f s)
    | .ok t => .next t

end Sys2Proof.Machine
end

