-- ==== Sys2Proof/Machine/Flags.lean ====
section
/-! DEFINITION. The status_flag_update_logic (spec 46_status_flag_update.md) and the bits of the
status byte (10_state.md R12 to R15). -/

namespace Sys2Proof.Machine

/-- `P.Z`, bit 1 (R13). -/
def zFlag (s : State) : Bool := s.p.getLsbD 1

/-- `P.N`, bit 7 (R14). -/
def nFlag (s : State) : Bool := s.p.getLsbD 7

/-- The six reserved bits of `P`, in place (R15). -/
def reservedBits (s : State) : Byte := s.p &&& 0x7D#8

/-- The status byte after `update_zn(v)`: Zero from `ISZERO8`, Negative from `MSB8`, the other six
bits kept (R87). -/
def znByte (v p : Byte) : Byte :=
  (p &&& 0x7D#8) ||| (if isZero8 v then 0x02#8 else 0x00#8) ||| (if msb8 v then 0x80#8 else 0x00#8)

/-- `update_zn(v)` (R87). -/
def updateZn (v : Byte) (s : State) : State := s.setStatus (znByte v s.p)

end Sys2Proof.Machine
end

