-- ==== Sys2Proof/Machine/Increment.lean ====
section
/-! DEFINITION. The increment family (spec 44_increment_inx.md): INX. -/

namespace Sys2Proof.Machine

/-- INX once the opcode byte is fetched (R85). -/
def inxBody (s : State) : Except Fault State :=
  .ok (updateZn (inc8 (readReg s .x)) (writeReg s .x (inc8 (readReg s .x))))

/-- INX for any configuration, from the state at the start of the step. -/
def execInxWith (c : Config) (s : State) : Host.Outcome State Fault Refusal := atomically c s inxBody

/-- INX (R85). -/
def execInx (s : State) : Host.Outcome State Fault Refusal := execInxWith decided s

end Sys2Proof.Machine
end

