-- ==== Sys2Proof/Machine/Operands.lean ====
section
/-! DEFINITION. The address_mode_resolver (spec 40_address_mode_resolver.md): every mode tag, both
values of `ZP_PTR_POLICY`. A function of the state: it writes nothing (R55). -/

namespace Sys2Proof.Machine

/-- `zp_ptr16(ptr)`: the pointer held in the zero-page at `ptr` (R69). Under `linear` this is the 16-bit
read at an address of at most 0x00FF, which never faults. -/
def zpPtr16 (c : Config) (s : State) (ptr : Byte) : Addr :=
  match c.zpPtr with
  | .linear => wordAt s (zext16 ptr)
  | .wrapPage0 => cat16 (memRead1 s (zext16 (add8 ptr 1#8))) (memRead1 s (zext16 ptr))

/-- Add an index register to a 16-bit operand that may have faulted (R62, R63). -/
def indexed (base : Except Fault Addr) (v : Byte) : Except Fault Addr :=
  match base with
  | .error f => .error f
  | .ok b => .ok (add16 b (zext16 v))

/-- `resolve(mode, p)`, `p` the address of the first operand byte (R55). -/
def resolve (c : Config) (s : State) (m : Mode) (p : Addr) : Except Fault Addr :=
  match m with
  | .immediate => .ok p                                                     -- R57
  | .zeroPage => .ok (zext16 (memRead1 s p))                                -- R58
  | .zeroPageX => .ok (zext16 (add8 (memRead1 s p) (readReg s .x)))         -- R59
  | .zeroPageY => .ok (zext16 (add8 (memRead1 s p) (readReg s .y)))         -- R60
  | .absolute => memRead2 c s p                                             -- R61
  | .absoluteX => indexed (memRead2 c s p) (readReg s .x)                   -- R62
  | .absoluteY => indexed (memRead2 c s p) (readReg s .y)                   -- R63
  | .indirectX => .ok (zpPtr16 c s (add8 (memRead1 s p) (readReg s .x)))    -- R64
  | .indirectY => .ok (add16 (zpPtr16 c s (memRead1 s p)) (zext16 (readReg s .y)))  -- R65
  | .noneAddressing => .error (.unsupportedAddressingMode .noneAddressing)  -- R66

end Sys2Proof.Machine
end

