-- ==== Sys2Proof/Machine/Load.lean ====
section
/-! DEFINITION. The load family (spec 42_load_lda.md): LDA immediate. -/

namespace Sys2Proof.Machine

/-- LDA once the opcode byte is fetched (R83): consume the one operand byte, load it, set the flags.
`imm` is the byte at `resolve(Immediate, pc)`, read with the opcode (log 8). -/
def ldaBody (c : Config) (imm : Byte) (s : State) : Except Fault State :=
  match pcInc c s.pc with
  | .error f => .error f
  | .ok pc => .ok (updateZn (pass8 imm) (writeReg (s.setPc pc) .a (pass8 imm)))

/-- LDA #imm for any configuration, from the state at the start of the step. -/
def execLdaWith (c : Config) (imm : Byte) (s : State) : Host.Outcome State Fault Refusal :=
  atomically c s (ldaBody c imm)

/-- LDA #imm (R83). -/
def execLda (imm : Byte) (s : State) : Host.Outcome State Fault Refusal := execLdaWith decided imm s

end Sys2Proof.Machine
end

