-- ==== Sys2Proof/Machine/System.lean ====
section
/-! DEFINITION. The system family (spec 45_break_brk.md): BRK, which here halts the loop. -/

namespace Sys2Proof.Machine

/-- BRK once the opcode byte is fetched (R86). -/
def brkBody (s : State) : Except Fault State := .ok (s.setRunState .halted)

/-- BRK for any configuration, from the state at the start of the step. -/
def execBrkWith (c : Config) (s : State) : Host.Outcome State Fault Refusal := atomically c s brkBody

/-- BRK (R86). -/
def execBrk (s : State) : Host.Outcome State Fault Refusal := execBrkWith decided s

end Sys2Proof.Machine
end

