-- ==== Sys2Proof/Machine/Transfer.lean ====
section
/-! DEFINITION. The transfer family (spec 43_transfer_tax.md): TAX. -/

namespace Sys2Proof.Machine

/-- TAX once the opcode byte is fetched (R84). -/
def taxBody (s : State) : Except Fault State :=
  .ok (updateZn (pass8 (readReg s .a)) (writeReg s .x (pass8 (readReg s .a))))

/-- TAX for any configuration, from the state at the start of the step. -/
def execTaxWith (c : Config) (s : State) : Host.Outcome State Fault Refusal := atomically c s taxBody

/-- TAX (R84). -/
def execTax (s : State) : Host.Outcome State Fault Refusal := execTaxWith decided s

end Sys2Proof.Machine
end

