-- ==== Sys2Proof/Machine/Fetch.lean ====
section
/-! DEFINITION. The 6502_fetch_unit (spec 41_fetch_decode_execute.md): the bytes a step reads, and one
iteration of the execution loop over a given dispatch. -/

namespace Sys2Proof.Machine

/-- The opcode byte of the next step (R73). -/
def opcodeAt (s : State) : Byte := memRead1 s s.pc

/-- The bytes at the program counter, as many as the longest instruction has, at ascending addresses
(R32, R73). Reading a byte the instruction does not use has no effect (R34; log 8). -/
def fetchBytes (s : State) : List Byte := [opcodeAt s, memRead1 s (s.pc + 1#16)]

/-- One step (R72): Running, it executes the instruction at the program counter, or raises
`UnimplementedOpcode` after the fetch's advance (R75, R123); otherwise no step exists (R71, R110). -/
def stepBy (c : Config) (ex : Instr → State → Host.Outcome State Fault Refusal) (s : State) :
    Host.Outcome State Fault Refusal :=
  match s.runState with
  | .running =>
    match decode (fetchBytes s) with
    | .ok (i, _) => ex i s
    | .error _ => atomically c s (fun _ => .error (.unimplementedOpcode (opcodeAt s)))
  | .halted => .refused .runWhileHalted
  | .faulted => .refused .runWhileFaulted

/-- Write bytes at ascending addresses from `addr`, each with `MemWrite(_, 1, _)` (R108). -/
def writeBytes (s : State) (addr : Addr) : List Byte → State
  | [] => s
  | b :: bs => writeBytes (memWrite1 s addr b) (addr + 1#16) bs

end Sys2Proof.Machine
end

