-- ==== Sys2Proof/Machine/Step.lean ====
section
/-! DEFINITION. The step of the machine, for the decided configuration (spec 41_fetch_decode_execute.md
R72), and the placing of an instruction where the next step fetches. -/

namespace Sys2Proof.Machine

/-- One iteration of the execution loop (R72). -/
def step (s : State) : Host.Outcome State Fault Refusal := stepBy decided exec s

/-- The state with an opcode-table word stored at the program counter, as a host write between runs
stores it (R112); log 10. -/
def State.withFetchWord (s : State) (nbits w : Nat) : State :=
  writeBytes s s.pc (tableWordBytes nbits w)

end Sys2Proof.Machine
end

