-- ==== Sys2Proof/Machine/Policies.lean ====
section
/-! DEFINITION. The machine under any value of the three open parameters (spec 00_scope.md R5: "so that
a claim can be stated for the other value too"), and the sequence of steps of a run. -/

namespace Sys2Proof.Machine

/-- `exec` for any configuration. -/
def execWith (c : Config) (i : Instr) (s : State) : Host.Outcome State Fault Refusal :=
  match i with
  | .brk => execBrkWith c s
  | .lda imm => execLdaWith c imm s
  | .tax => execTaxWith c s
  | .inx => execInxWith c s

/-- `step` for any configuration. -/
def stepWith (c : Config) (s : State) : Host.Outcome State Fault Refusal := stepBy c (execWith c) s

/-- At most `n` steps of a run: it stops where no further step exists (R77, R80). -/
def runSteps (c : Config) : Nat → State → State
  | 0, s => s
  | n + 1, s =>
    match stepWith c s with
    | .next t => runSteps c n t
    | .fault _ => s
    | .refused _ => s

end Sys2Proof.Machine
end

