-- ==== Sys2Proof/Machine/HostOps.lean ====
section
/-! DEFINITION. What the host can do to the machine between runs (spec 50_interfaces.md R107 to R113,
70_reset_and_hazards.md R135, R136): power-on, load, reset, run, load_and_run, and field writes. -/

namespace Sys2Proof.Machine

/-- Power-on (R135, R22): every piece of state is written, none is read. -/
def powerOn : State where
  a := 0x00#8
  x := 0x00#8
  y := 0x00#8
  p := 0x00#8
  pc := 0x0000#16
  mem := []
  runState := .running
  faultCause := 0#3
  faultInfo := 0x00#8

/-- One operation of the host (R107). Field reads are functions of the state (Machine/Ports.lean). -/
inductive HostAction where
  | powerOn
  | load (bytes : List Byte)
  | reset
  | run
  | loadAndRun (bytes : List Byte)
  | writeReg (r : Reg) (v : Byte)
  | writeStatus (v : Byte)
  | writePc (v : Addr)
  | writeCell (addr : Addr) (v : Byte)
  deriving DecidableEq, Repr

/-- How an operation of the host ends. -/
inductive HostAnswer where
  /-- it is complete, and the machine is in this state -/
  | done (s : State)
  /-- `load` was given more than 0x8000 bytes; the machine is as before (R109, D13) -/
  | programTooLarge (s : State)
  /-- the request has no meaning (R110, D7) -/
  | refused (r : Refusal)
  /-- the run has no end (R82; only under `PC_TOP_POLICY = wrap`); log 9 -/
  | noEnd
  deriving DecidableEq, Repr

/-- `load(bytes)` where the program fits (R108): the copy, then the reset vector, which wins where they
overlap (D12). -/
def loadBytes (bytes : List Byte) (s : State) : State :=
  setWordAt (writeBytes s loadBase bytes) resetVector loadBase

/-- `load(bytes)` (R108, R109). -/
def load (bytes : List Byte) (s : State) : HostAnswer :=
  if programFits bytes then .done (loadBytes bytes s) else .programTooLarge s

/-- The number of steps after which a run that is still going never ends: the control flow depends on the
program counter and memory alone, and a run does not write memory (log 9). -/
def runBound : Nat := 0x10000

/-- `run()` (R110): steps until the run state is no longer Running. -/
def run (c : Config) (s : State) : HostAnswer :=
  match s.runState with
  | .running =>
    if (runSteps c runBound s).runState = .running then .noEnd else .done (runSteps c runBound s)
  | .halted => .refused .runWhileHalted
  | .faulted => .refused .runWhileFaulted

/-- `load_and_run(program)` (R111): load, reset, run; nothing after a failed load. -/
def loadAndRun (c : Config) (bytes : List Byte) (s : State) : HostAnswer :=
  match load bytes s with
  | .done t => run c (hostReset t)
  | .programTooLarge t => .programTooLarge t
  | .refused r => .refused r
  | .noEnd => .noEnd

/-- One operation of the host on a machine with no run in progress (R107, R112). -/
def host (c : Config) (act : HostAction) (s : State) : HostAnswer :=
  match act with
  | .powerOn => .done powerOn
  | .load bytes => load bytes s
  | .reset => .done (hostReset s)
  | .run => run c s
  | .loadAndRun bytes => loadAndRun c bytes s
  | .writeReg r v => .done (Machine.writeReg s r v)
  | .writeStatus v => .done (s.setStatus v)
  | .writePc v => .done (s.setPc v)
  | .writeCell addr v => .done (memWrite1 s addr v)

end Sys2Proof.Machine
end

