-- ==== Sys2Proof/Machine/Ports.lean ====
section
/-! DEFINITION. The ports of the sub-blocks (spec 50_interfaces.md R102 to R106) as functions from a
request to its response. Outputs that have no meaning in a response are absent from it (log 11). -/

namespace Sys2Proof.Machine

/-- A request on the memory port (R102). -/
inductive MemRequest where
  | read1 (addr : Addr)
  | read2 (addr : Addr)
  | write1 (addr : Addr) (wdata : Addr)
  | write2 (addr : Addr) (wdata : Addr)
  deriving DecidableEq, Repr

/-- A response on the memory port (R102): `rdata` and the state after, or `fault` = 1. -/
inductive MemResponse where
  | data (rdata : Addr)
  | written (s : State)
  | fault
  deriving DecidableEq, Repr

/-- The memory port (R102): a byte read has a zero upper byte, a byte write uses the low 8 bits. -/
def memoryPort (c : Config) (s : State) : MemRequest → MemResponse
  | .read1 addr => .data (zext16 (memRead1 s addr))
  | .read2 addr =>
    match memRead2 c s addr with
    | .ok v => .data v
    | .error _ => .fault
  | .write1 addr wdata => .written (memWrite1 s addr (lowByte wdata))
  | .write2 addr wdata =>
    match memWrite2 c s addr wdata with
    | .ok t => .written t
    | .error _ => .fault

/-- The outputs of the host control port (R103). -/
structure ControlOutputs where
  halted : Bool
  faulted : Bool
  faultCause : BitVec 3
  faultInfo : Byte
  deriving DecidableEq, Repr

/-- What the host control port shows (R103). -/
def controlOutputs (s : State) : ControlOutputs where
  halted := s.runState == .halted
  faulted := s.runState == .faulted
  faultCause := s.faultCause
  faultInfo := s.faultInfo

/-- The registers on the host observation port (R104, R25). -/
structure Observation where
  a : Byte
  x : Byte
  y : Byte
  p : Byte
  pc : Addr
  deriving DecidableEq, Repr

/-- What the host reads between runs (R104); any cell is read with `memRead1`. -/
def observe (s : State) : Observation where
  a := readReg s .a
  x := readReg s .x
  y := readReg s .y
  p := s.p
  pc := s.pc

/-- A response on the resolver port (R105): the effective address, or `fault` = 1 with its payload. -/
inductive ResolverResponse where
  | ea (addr : Addr)
  | fault (info : Byte)
  deriving DecidableEq, Repr

/-- The resolver port (R105): the tag's code and `p`. A code that is no tag has no response (R56). It
returns no state: a fault reported here changes none. -/
def resolverPort (c : Config) (s : State) (code : BitVec 4) (p : Addr) : Option ResolverResponse :=
  match modeOfCode code with
  | none => none
  | some m =>
    match resolve c s m p with
    | .ok addr => some (.ea addr)
    | .error f => some (.fault (faultPayload f))

/-- The outputs of the decoder port when `valid` = 1 (R106). -/
structure DecoderResponse where
  operation : BitVec 2
  mode : BitVec 4
  operandBytes : BitVec 2
  deriving DecidableEq, Repr

/-- The decoder port (R106); `none` is `valid` = 0. -/
def decoderPort (op : Byte) : Option DecoderResponse :=
  match decodeOp op with
  | none => none
  | some d =>
    some ⟨operationCode d.operation, modeCode d.mode, BitVec.ofNat 2 d.operandBytes⟩

end Sys2Proof.Machine
end

