-- ==== Sys2Proof/Safety.lean ====
section
/-! DEFINITION. The terms claims use: the invariant of the state, a run that ends well, and what two
states share. -/

namespace Sys2Proof.Machine

/-- What every reachable state has: memory in canonical form, and a fault latch that agrees with the run
state and holds a cause of R116 with its payload (R20). -/
structure StateInv (s : State) : Prop where
  memory : s.mem.wf = true
  latched_iff : s.faultCause ≠ 0#3 ↔ s.runState = .faulted
  cause_listed : s.faultCause.toNat ≤ 4
  info_of_none : s.faultCause = 0#3 → s.faultInfo = 0x00#8
  info_of_opcode : s.faultCause = 1#3 → decodeOp s.faultInfo = none
  info_of_mode : s.faultCause = 2#3 → s.faultInfo = 0x09#8
  info_of_top : s.faultCause = 3#3 ∨ s.faultCause = 4#3 → s.faultInfo = 0x00#8

/-- Every byte of memory reads the same in both states. -/
def SameMemory (s t : State) : Prop := ∀ addr : Addr, memRead1 t addr = memRead1 s addr

/-- The run state and the fault latch are the same in both states. -/
def SameRunAndLatch (s t : State) : Prop :=
  t.runState = s.runState ∧ t.faultCause = s.faultCause ∧ t.faultInfo = s.faultInfo

/-- A run from `s` ends well in `t`: some number of steps leads to `t`, and `t` is Halted (R80). -/
def EndsWell (c : Config) (s t : State) : Prop :=
  s.runState = .running ∧ t.runState = .halted ∧ ∃ n, runSteps c n s = t

end Sys2Proof.Machine
end

