-- ==== Sys2Proof/Certificates/Slice0/Obligations.lean ====
section
/-! DEFINITION. The statements for the provers. Each docstring names the rule or section of the spec it
formalises; a clause that rests on a decision of the spec (its own choice, marked `[decision: D<n>]`
there) or on a log entry says so. -/

namespace Sys2Proof.Spec

open Sys2Proof.Machine

/-- The status byte after `update_zn(v)`, the one expression of R87. -/
def zn (v p : Byte) : Byte :=
  (p &&& 0x7D#8) ||| (if v = 0x00#8 then 0x02#8 else 0x00#8) ||| (v &&& 0x80#8)

/-- A value plus 1, modulo 256 (R85, R95), computed on numbers. -/
def plusOne (v : Byte) : Byte := BitVec.ofNat 8 ((v.toNat + 1) % 256)

/-- The state a fault leaves (R124; the form of the state is decisions D8 and D11, the codes D9). -/
def faultedWith (s : State) (cause : BitVec 3) (info : Byte) : State :=
  { s with runState := .faulted, faultCause := cause, faultInfo := info }

/-- The four implemented opcode bytes (R47). -/
def opcodes : List Byte := [0x00#8, 0xA9#8, 0xAA#8, 0xE8#8]

/-- Where the high byte of the zero-page pointer at `q` is read (R69): the next address, or the next address
of page 0 (decision D5 is the choice between the two). -/
def ptrHighAddr (c : Config) (q : Byte) : Addr :=
  match c.zpPtr with
  | .linear => BitVec.ofNat 16 (q.toNat + 1)
  | .wrapPage0 => BitVec.ofNat 16 ((q.toNat + 1) % 256)

/-- The 16-bit pointer at `q` in the zero-page, as a number (R69). -/
def pointerAt (c : Config) (s : State) (q : Byte) : Nat :=
  (memRead1 s (ptrHighAddr c q)).toNat * 256 + (memRead1 s (BitVec.ofNat 16 q.toNat)).toNat

/-- The step of R72, R73, R75, R83 to R86, transcribed: the pseudocode reads memory and calls the resolver
itself, and every raise keeps the state of the start of the step (R7). -/
def loopIteration (c : Config) (s : State) : State :=
  let op := memRead1 s s.pc
  match pcInc c s.pc with
  | .error f => enterFault f s
  | .ok pc1 =>
    let s1 := { s with pc := pc1 }
    if op = 0x00#8 then { s1 with runState := .halted }
    else if op = 0xA9#8 then
      match resolve c s1 .immediate s1.pc with
      | .error f => enterFault f s
      | .ok ea =>
        let v := memRead1 s1 ea
        match pcInc c s1.pc with
        | .error f => enterFault f s
        | .ok pc2 => { s1 with pc := pc2, a := v, p := zn v s1.p }
    else if op = 0xAA#8 then { s1 with x := s1.a, p := zn s1.a s1.p }
    else if op = 0xE8#8 then { s1 with x := plusOne s1.x, p := zn (plusOne s1.x) s1.p }
    else enterFault (.unimplementedOpcode op) s

end Sys2Proof.Spec

open Sys2Proof Sys2Proof.Machine Sys2Proof.Spec

/-! ### Encoding -/

/-- R47 and R45 (Immediate's one operand byte is decision D27): decoding the bytes of an instruction
gives it back with the bytes after it, for every operand value. -/
def Obligations.DecodeOfEncode : Prop :=
  ∀ (i : Instr) (rest : List Byte), decode (encode i ++ rest) = .ok (i, rest)

/-- R49, R50: a byte sequence that decodes is the encoding of the instruction and the bytes after it, so
every word has one meaning. -/
def Obligations.EncodeOfDecode : Prop :=
  ∀ (bytes rest : List Byte) (i : Instr), decode bytes = .ok (i, rest) → bytes = encode i ++ rest

/-- R47: words written out from the encodings of opcode_table.json decode to their instructions. -/
def Obligations.WrittenWordsDecode : Prop :=
  decode [0b00000000#8] = .ok (.brk, []) ∧
  decode [0b10101001#8, 0b00000101#8] = .ok (.lda 0x05#8, []) ∧
  decode [0b10101010#8] = .ok (.tax, []) ∧
  decode [0b11101000#8] = .ok (.inx, [])

/-- R45 (with D27), R50: the length is 1 plus the operand count of the addressing mode, known from the
first byte alone. -/
def Obligations.LengthFromFirstByte : Prop :=
  ∀ (op : Byte) (more rest : List Byte) (i : Instr), decode (op :: more) = .ok (i, rest) →
    ∃ d, decodeOp op = some d ∧ d.operandBytes = operandBytes d.mode ∧
      (encode i).length = 1 + d.operandBytes ∧ more = more.take d.operandBytes ++ rest

/-- R48: every opcode byte but the four is unimplemented, 252 values; on a step, the fault
`UnimplementedOpcode` with the byte as payload. That the fault is a next state in Faulted with cause 1 is
decisions D8, D9 and D11. -/
def Obligations.OtherOpcodesFault : Prop :=
  (∀ op : Byte, decodeOp op = none ↔ op ∉ opcodes) ∧
  ((List.range 256).filter (fun n => (decodeOp (BitVec.ofNat 8 n)).isNone)).length = 252 ∧
  ∀ s : State, s.runState = .running → s.pc ≠ 0xFFFF#16 → memRead1 s s.pc ∉ opcodes →
    step s = .next (faultedWith s 1#3 (memRead1 s s.pc))

/-- R56 and R106: the number of every mode tag and of every operation (decision D18, log 12), and that the
codes 10 to 15 are no tags. -/
def Obligations.PortCodes : Prop :=
  modeCode .immediate = 0#4 ∧ modeCode .zeroPage = 1#4 ∧ modeCode .zeroPageX = 2#4 ∧
  modeCode .zeroPageY = 3#4 ∧ modeCode .absolute = 4#4 ∧ modeCode .absoluteX = 5#4 ∧
  modeCode .absoluteY = 6#4 ∧ modeCode .indirectX = 7#4 ∧ modeCode .indirectY = 8#4 ∧
  modeCode .noneAddressing = 9#4 ∧
  (∀ m : Mode, modeOfCode (modeCode m) = some m) ∧
  (∀ code : BitVec 4, 10 ≤ code.toNat → modeOfCode code = none) ∧
  decoderPort 0x00#8 = some ⟨0#2, 9#4, 0#2⟩ ∧ decoderPort 0xA9#8 = some ⟨1#2, 0#4, 1#2⟩ ∧
  decoderPort 0xAA#8 = some ⟨2#2, 9#4, 0#2⟩ ∧ decoderPort 0xE8#8 = some ⟨3#2, 9#4, 0#2⟩ ∧
  ∀ op : Byte, op ∉ opcodes → decoderPort op = none

/-! ### The four instructions: completion, result, where they trap -/

/-- R83: the bytes; the effect, with every field it leaves alone; the operand read through the resolver's
Immediate mode; and that where an advance of the program counter raises a fault, that fault is taken and A
and P are not written. That a fault is taken as the next state `enterFault f s` is no part of R83: it is
decisions D8 and D11 (log 6). Where the advances do raise one is InstructionsTrapAtTheTop. -/
def Obligations.LdaLoadsItsOperand : Prop :=
  ∀ (imm : Byte) (s : State),
    encode (.lda imm) = [0xA9#8, imm] ∧
    (s.pc ≠ 0xFFFF#16 → s.pc ≠ 0xFFFE#16 →
      exec (.lda imm) s = .next { s with a := imm, p := zn imm s.p, pc := s.pc + 2#16 }) ∧
    (∀ f, (pcInc decided s.pc = .error f ∨
        ∃ q, pcInc decided s.pc = .ok q ∧ pcInc decided q = .error f) →
      exec (.lda imm) s = .next (enterFault f s) ∧ (enterFault f s).a = s.a ∧ (enterFault f s).p = s.p) ∧
    (∀ ea : Addr, s.runState = .running → memRead1 s s.pc = 0xA9#8 →
      resolve decided s .immediate (s.pc + 1#16) = .ok ea →
      step s = exec (.lda (memRead1 s ea)) s)

/-- R84: the byte; the effect, with every field it leaves alone; and that a fault of the fetch's advance is
taken instead. R84 says only that the fetch raises it; that it is taken as the next state `enterFault f s`
is decisions D8 and D11 (log 6). -/
def Obligations.TaxCopiesTheAccumulator : Prop :=
  ∀ s : State,
    encode .tax = [0xAA#8] ∧
    (s.pc ≠ 0xFFFF#16 → exec .tax s = .next { s with x := s.a, p := zn s.a s.p, pc := s.pc + 1#16 }) ∧
    (∀ f, pcInc decided s.pc = .error f → exec .tax s = .next (enterFault f s))

/-- R85: the byte; the effect, with every field it leaves alone; and that a fault of the fetch's advance is
taken instead. R85 says only that the fetch raises it; that it is taken as the next state `enterFault f s`
is decisions D8 and D11 (log 6). -/
def Obligations.InxAddsOneToX : Prop :=
  ∀ s : State,
    encode .inx = [0xE8#8] ∧
    (s.pc ≠ 0xFFFF#16 →
      exec .inx s = .next { s with x := plusOne s.x, p := zn (plusOne s.x) s.p, pc := s.pc + 1#16 }) ∧
    (∀ f, pcInc decided s.pc = .error f → exec .inx s = .next (enterFault f s))

/-- R86: the byte; the halt, with every field it leaves alone; and that where the fetch's advance raises a
fault the machine does not halt. R86 says only that the fetch raises it first; that the machine then is in
the next state `enterFault f s`, Faulted, is decisions D8 and D11 (log 6). -/
def Obligations.BrkHalts : Prop :=
  ∀ s : State,
    encode .brk = [0x00#8] ∧
    (s.pc ≠ 0xFFFF#16 → exec .brk s = .next { s with runState := .halted, pc := s.pc + 1#16 }) ∧
    (∀ f, pcInc decided s.pc = .error f →
      exec .brk s = .next (enterFault f s) ∧ (enterFault f s).runState = .faulted)

/-- Where the four instructions trap: every one at 0xFFFF, LDA at 0xFFFE too. That the advance faults there
is decision D3, the form of the state is D8 and D11, the code is D9. -/
def Obligations.InstructionsTrapAtTheTop : Prop :=
  ∀ (imm : Byte) (s : State),
    (s.pc = 0xFFFF#16 → ∀ i ∈ [Instr.brk, .lda imm, .tax, .inx],
      exec i s = .next (faultedWith s 3#3 0x00#8)) ∧
    (s.pc = 0xFFFE#16 → exec (.lda imm) s = .next (faultedWith s 3#3 0x00#8))

/-- R5, R17: under `PC_TOP_POLICY = wrap` (the other value decision D3 allows) every instruction completes
in every state, the program counter going on at 0x0000. -/
def Obligations.UnderWrapEveryInstructionCompletes : Prop :=
  ∀ (c : Config) (s : State) (imm : Byte), c.pcTop = .wrap →
    execWith c (.lda imm) s = .next { s with a := imm, p := zn imm s.p, pc := s.pc + 2#16 } ∧
    execWith c .tax s = .next { s with x := s.a, p := zn s.a s.p, pc := s.pc + 1#16 } ∧
    execWith c .inx s = .next { s with x := plusOne s.x, p := zn (plusOne s.x) s.p, pc := s.pc + 1#16 } ∧
    execWith c .brk s = .next { s with runState := .halted, pc := s.pc + 1#16 }

/-! ### Frames (R24; the fault case is R124 with D11) -/

/-- LDA's frame: X, Y, the reserved bits of P and every byte of memory; the run state and the latch too,
unless the step takes a fault, which then is `PcOverflow` and changes nothing else. -/
def Obligations.LdaFrame : Prop :=
  ∀ (imm : Byte) (s t : State), exec (.lda imm) s = .next t →
    t.x = s.x ∧ t.y = s.y ∧ t.p &&& 0x7D#8 = s.p &&& 0x7D#8 ∧ SameMemory s t ∧
    (SameRunAndLatch s t ∨ t = faultedWith s 3#3 0x00#8)

/-- The frame of TAX and INX: A, Y, the reserved bits of P and every byte of memory; the run state and the
latch too, unless the step takes a fault, which then is `PcOverflow` and changes nothing else. -/
def Obligations.TaxInxFrame : Prop :=
  ∀ (i : Instr) (s t : State), i = .tax ∨ i = .inx → exec i s = .next t →
    t.a = s.a ∧ t.y = s.y ∧ t.p &&& 0x7D#8 = s.p &&& 0x7D#8 ∧ SameMemory s t ∧
    (SameRunAndLatch s t ∨ t = faultedWith s 3#3 0x00#8)

/-- BRK's frame: A, X, Y, all of P and every byte of memory; the latch too, unless the step takes a fault,
which then is `PcOverflow` and changes nothing else. -/
def Obligations.BrkFrame : Prop :=
  ∀ s t : State, exec .brk s = .next t →
    t.a = s.a ∧ t.x = s.x ∧ t.y = s.y ∧ t.p = s.p ∧ SameMemory s t ∧
    ((t.faultCause = s.faultCause ∧ t.faultInfo = s.faultInfo) ∨ t = faultedWith s 3#3 0x00#8)

/-! ### The step -/

/-- R73, R74: Running, with the bytes of an instruction at the program counter and the addresses after it
(modulo 65536), a step is `exec` of that instruction. `exec` itself advances the program counter (log 7). -/
def Obligations.StepRunsTheInstructionAtPc : Prop :=
  ∀ (s : State) (i : Instr), s.runState = .running → i.wellFormed = true →
    (∀ (k : Nat) (h : k < (encode i).length),
      memRead1 s (s.pc + BitVec.ofNat 16 k) = (encode i)[k]) →
    step s = exec i s

/-- R40, R112 (host writes of memory are decision D15), log 10: an opcode-table word placed where the next
step fetches is run by the next step, and the placing changes no other cell and no register. -/
def Obligations.PlacedWordIsRun : Prop :=
  ∀ (s : State) (nbits w : Nat) (i : Instr), s.runState = .running → s.mem.wf = true →
    decodeTableWord nbits w = some i →
    step (s.withFetchWord nbits w) = exec i (s.withFetchWord nbits w) ∧
    (∀ addr : Addr, addr ≠ s.pc → addr ≠ s.pc + 1#16 →
      memRead1 (s.withFetchWord nbits w) addr = memRead1 s addr) ∧
    { s.withFetchWord nbits w with mem := s.mem } = s

/-- R72 with R73 to R76 and R83 to R86: a step of a Running machine is the loop contract, written out as the
spec's pseudocode, under every configuration. That a raise leaves the state `enterFault f s` is decisions D8
and D11 (log 6); that LDA advances over its operand before it writes is decision D21 (log 18). -/
def Obligations.StepIsTheLoopContract : Prop :=
  ∀ (c : Config) (s : State), s.runState = .running → stepWith c s = .next (loopIteration c s)

/-- R5: the machine's own step and dispatch are those of the configuration the spec decides (D3, D4, D5). -/
def Obligations.MachineHasDecidedParameters : Prop :=
  decided = ⟨.fault, .fault, .linear⟩ ∧ ∀ (i : Instr) (s : State),
    exec i s = execWith decided i s ∧ step s = stepWith decided s

/-- R71, R78, R110: a step exists exactly when the machine is Running; otherwise it is refused (D7; log 4). -/
def Obligations.StepExistsExactlyWhenRunning : Prop :=
  ∀ s : State, ((∃ t, step s = .next t) ↔ s.runState = .running) ∧
    (s.runState = .halted → step s = .refused .runWhileHalted) ∧
    (s.runState = .faulted → step s = .refused .runWhileFaulted)

/-- R77: how the run state can change. -/
def Obligations.RunStateAfterAStep : Prop :=
  ∀ s t : State, step s = .next t →
    (t.runState = .halted ↔ memRead1 s s.pc = 0x00#8 ∧ t.pc = s.pc + 1#16) ∧
    (t.runState = .running → memRead1 s s.pc ∈ [0xA9#8, 0xAA#8, 0xE8#8]) ∧
    (t.runState = .faulted → t = faultedWith s t.faultCause t.faultInfo)

/-- R123, R116, R124 (D3, D9, D10, D11): the whole of what a faulting step of the four opcodes does. At
0xFFFF every opcode byte gives `PcOverflow`; an LDA at 0xFFFE too; a byte that is no opcode elsewhere gives
`UnimplementedOpcode`; the other two causes never arise in a run. Everything but the run state and the
latch is as at the start of the step. -/
def Obligations.FaultsOfAStep : Prop :=
  ∀ s t : State, step s = .next t → t.runState = .faulted →
    (t = faultedWith s 3#3 0x00#8 ∧
      (s.pc = 0xFFFF#16 ∨ (s.pc = 0xFFFE#16 ∧ memRead1 s s.pc = 0xA9#8))) ∨
    (t = faultedWith s 1#3 (memRead1 s s.pc) ∧ s.pc ≠ 0xFFFF#16 ∧ memRead1 s s.pc ∉ opcodes)

/-- R123 (D10), R17 (D3): at 0xFFFF the fetch's advance faults before decode, whatever the byte. -/
def Obligations.TopOfMemoryFaultsFirst : Prop :=
  ∀ s : State, s.runState = .running → s.pc = 0xFFFF#16 → step s = .next (faultedWith s 3#3 0x00#8)

/-- R116, R124, R20 (decisions D8, D9, D11): fault entry, for each cause, from any state. -/
def Obligations.FaultEntry : Prop :=
  ∀ (s : State) (op : Byte),
    enterFault (.unimplementedOpcode op) s = faultedWith s 1#3 op ∧
    enterFault (.unsupportedAddressingMode .noneAddressing) s = faultedWith s 2#3 0x09#8 ∧
    enterFault .pcOverflow s = faultedWith s 3#3 0x00#8 ∧
    enterFault .mem16AtTop s = faultedWith s 4#3 0x00#8

/-- R81, R17: a step leaves the program counter where it was (a fault, D11), or one further, or two further
after an LDA; nothing else moves it. -/
def Obligations.PcMovesByOneOrTwo : Prop :=
  ∀ s t : State, step s = .next t →
    (t.runState = .faulted ∧ t.pc = s.pc) ∨
    (t.runState ≠ .faulted ∧ memRead1 s s.pc ≠ 0xA9#8 ∧ t.pc.toNat = s.pc.toNat + 1) ∨
    (t.runState ≠ .faulted ∧ memRead1 s s.pc = 0xA9#8 ∧ t.pc.toNat = s.pc.toNat + 2)

/-- R90: no step reads the status byte: with another status byte the same step happens, and only the status
byte differs after it. Where the step ends Running, which is after LDA, TAX and INX (R77), the new Z and N do
not depend on the old byte and the reserved bits are those it started with; otherwise the whole byte is. That
a fault keeps it is decision D11 (log 6). -/
def Obligations.FlagsInfluenceNothing : Prop :=
  ∀ (s t : State) (v : Byte), step s = .next t →
    ∃ q : Byte, step { s with p := v } = .next { t with p := q } ∧ q &&& 0x7D#8 = v &&& 0x7D#8 ∧
      (t.runState = .running → q &&& 0x82#8 = t.p &&& 0x82#8) ∧
      (t.runState ≠ .running → q = v)

/-- R74, R81, R90: where a step goes, whether it halts or faults, and with what cause, depends on the program
counter, the run state, the latch and memory alone, under every configuration. -/
def Obligations.RegistersDoNotSteerControl : Prop :=
  ∀ (c : Config) (s s' t : State), stepWith c s = .next t →
    s'.pc = s.pc → s'.mem = s.mem → s'.runState = s.runState →
    s'.faultCause = s.faultCause → s'.faultInfo = s.faultInfo →
    ∃ t', stepWith c s' = .next t' ∧ t'.pc = t.pc ∧ t'.mem = t.mem ∧ SameRunAndLatch t t'

/-- R31, R69 (D4, D5): no step depends on `MEM16_TOP_POLICY` or `ZP_PTR_POLICY`; only `PC_TOP_POLICY` can
matter to a run of the four opcodes. -/
def Obligations.OnlyThePcPolicyMattersToAStep : Prop :=
  ∀ (c c' : Config) (s : State), c.pcTop = c'.pcTop → stepWith c s = stepWith c' s

/-! ### Invariants and runs -/

/-- R18, R20 and the canonical form of memory: every step keeps the invariant, from every state that has
it. The shape of the latch is decision D8. -/
def Obligations.StepKeepsInv : Prop := ∀ s t : State, StateInv s → step s = .next t → StateInv t

/-- The machine right after reset has the invariant. -/
def Obligations.ResetHasInv : Prop := StateInv State.reset

/-- R107 to R113 (D12, D13, D15): every operation of the host, a whole run included, keeps the invariant,
under every configuration. -/
def Obligations.HostKeepsInv : Prop :=
  ∀ (c : Config) (act : HostAction) (s t : State), StateInv s →
    host c act s = .done t ∨ host c act s = .programTooLarge t → StateInv t

/-- R11, R37, R91(d): a run of any length leaves Y, every byte of memory and the six reserved status bits as
they were, under every configuration. -/
def Obligations.RunsLeaveYAndMemory : Prop :=
  ∀ (c : Config) (n : Nat) (s : State),
    (runSteps c n s).y = s.y ∧ (runSteps c n s).mem = s.mem ∧
    (runSteps c n s).p &&& 0x7D#8 = s.p &&& 0x7D#8

/-- R91(c): started from a status byte of 0x00, 0x02 or 0x80, a run never shows another value. -/
def Obligations.StatusStaysInThreeValues : Prop :=
  ∀ (c : Config) (n : Nat) (s : State), s.p ∈ [0x00#8, 0x02#8, 0x80#8] →
    (runSteps c n s).p ∈ [0x00#8, 0x02#8, 0x80#8]

/-- R82 (D3): under the decided policy every run ends, within 0x10000 minus the program counter steps. -/
def Obligations.EveryRunEnds : Prop :=
  ∀ s : State, ∃ n, n ≤ 0x10000 - s.pc.toNat ∧ (runSteps decided n s).runState ≠ .running

/-- R82 (D3): under `PC_TOP_POLICY = wrap`, a memory of 0xE8 in every cell makes the core execute INX for
ever. -/
def Obligations.UnderWrapARunCanGoOnForEver : Prop :=
  ∀ (c : Config) (s : State), c.pcTop = .wrap → s.runState = .running →
    (∀ addr : Addr, memRead1 s addr = 0xE8#8) → ∀ n, (runSteps c n s).runState = .running

/-- Log 9: under every configuration, a run that is still going after 65536 steps never ends, so the host's
`run` answers `noEnd` only for a run without an end. -/
def Obligations.LongRunsNeverEnd : Prop :=
  ∀ (c : Config) (s : State), (runSteps c 0x10000 s).runState = .running →
    ∀ n, (runSteps c n s).runState = .running

/-- R80: the end state of a run that ends in Halted: the byte before the program counter is the break
opcode, Y and memory are as at the start, and no fault is latched. -/
def Obligations.EndStateOfARun : Prop :=
  ∀ (c : Config) (s t : State), StateInv s → EndsWell c s t →
    memRead1 t (t.pc - 1#16) = 0x00#8 ∧ t.y = s.y ∧ t.mem = s.mem ∧ t.faultCause = 0#3

/-- R110, R82 (D3, D7; log 4): `run` on this machine: refused when Halted or Faulted; when Running it answers
a state that is no longer Running and that some number of steps leads to. R111, R109 (D28, D13), under every
configuration: `load_and_run` is `load`, then `reset`, then `run`; a program that does not fit is answered
with the machine as before, neither reset nor run. -/
def Obligations.RunOfTheHost : Prop :=
  ∀ s : State,
    (s.runState = .halted → host decided .run s = .refused .runWhileHalted) ∧
    (s.runState = .faulted → host decided .run s = .refused .runWhileFaulted) ∧
    (s.runState = .running → ∃ t n, host decided .run s = .done t ∧ t.runState ≠ .running ∧
      runSteps decided n s = t) ∧
    ∀ (c : Config) (bytes : List Byte),
      (bytes.length ≤ 0x8000 → ∃ t u, host c (.load bytes) s = .done t ∧ host c .reset t = .done u ∧
        host c (.loadAndRun bytes) s = host c .run u) ∧
      (0x8000 < bytes.length → host c (.loadAndRun bytes) s = .programTooLarge s)

/-! ### Flags and arithmetic -/

/-- R87: `update_zn` bit by bit and as one expression; nothing but P changes. -/
def Obligations.UpdateZnWritesTwoBits : Prop :=
  ∀ (v : Byte) (s : State),
    updateZn v s = { s with p := zn v s.p } ∧
    zFlag (updateZn v s) = decide (v = 0x00#8) ∧
    nFlag (updateZn v s) = v.getLsbD 7 ∧
    ∀ k, k ≠ 1 → k ≠ 7 → (updateZn v s).p.getLsbD k = s.p.getLsbD k

/-- R91(a), (b): Zero and Negative are never both set after `update_zn`, and it is idempotent. -/
def Obligations.UpdateZnLaws : Prop :=
  ∀ (v : Byte) (s : State),
    ¬ (zFlag (updateZn v s) = true ∧ nFlag (updateZn v s) = true) ∧
    updateZn v (updateZn v s) = updateZn v s

/-- R93, R94: the two additions on numbers, carries discarded, an 8-bit operand of the 16-bit addition
zero-extended; and the increment (R95) and the pass-through (R96). -/
def Obligations.AluArithmetic : Prop :=
  ∀ (v w : Byte) (b d : Addr),
    (add8 v w).toNat = (v.toNat + w.toNat) % 256 ∧
    (add16 b d).toNat = (b.toNat + d.toNat) % 65536 ∧
    (zext16 v).toNat = v.toNat ∧
    (inc8 v).toNat = (v.toNat + 1) % 256 ∧
    pass8 v = v

/-! ### Memory -/

/-- R28, R30 (below 0xFFFF), R32: a byte write and a word write, read back at every address; nothing but
memory changes. -/
def Obligations.WritesAreReadBack : Prop :=
  ∀ (c : Config) (s : State) (addr : Addr) (v : Byte) (w : Addr), s.mem.wf = true →
    (∀ other, memRead1 (memWrite1 s addr v) other = if other = addr then v else memRead1 s other) ∧
    { memWrite1 s addr v with mem := s.mem } = s ∧
    (addr ≠ 0xFFFF#16 → ∃ t, memWrite2 c s addr w = .ok t ∧ memRead2 c t addr = .ok w ∧
      { t with mem := s.mem } = s ∧
      ∀ other, (memRead1 t other).toNat = if other = addr then w.toNat % 256
        else if other = addr + 1#16 then w.toNat / 256 else (memRead1 s other).toNat)

/-- R29: below 0xFFFF a 16-bit read never fails and is little-endian. -/
def Obligations.WordReadIsLittleEndian : Prop :=
  ∀ (c : Config) (s : State) (addr : Addr), addr ≠ 0xFFFF#16 →
    ∃ v, memRead2 c s addr = .ok v ∧
      v.toNat = (memRead1 s (addr + 1#16)).toNat * 256 + (memRead1 s addr).toNat

/-- R31, R120 (decision D4): a 16-bit access at 0xFFFF, under both values of `MEM16_TOP_POLICY`. -/
def Obligations.WordAccessAtTheTop : Prop :=
  ∀ (c : Config) (s : State) (w : Addr),
    (c.mem16Top = .fault →
      memRead2 c s 0xFFFF#16 = .error .mem16AtTop ∧ memWrite2 c s 0xFFFF#16 w = .error .mem16AtTop) ∧
    (c.mem16Top = .wrap → s.mem.wf = true →
      (∃ v, memRead2 c s 0xFFFF#16 = .ok v ∧
        v.toNat = (memRead1 s 0x0000#16).toNat * 256 + (memRead1 s 0xFFFF#16).toNat) ∧
      ∃ t, memWrite2 c s 0xFFFF#16 w = .ok t ∧
        (memRead1 t 0xFFFF#16).toNat = w.toNat % 256 ∧ (memRead1 t 0x0000#16).toNat = w.toNat / 256 ∧
        ∀ other, other ≠ 0xFFFF#16 → other ≠ 0x0000#16 → memRead1 t other = memRead1 s other)

/-- Log 20: the list form of memory is the model's own choice, not the spec's (R18 says only that every
address holds a byte); it is canonical: two memories that read the same at every address are the same
data. -/
def Obligations.EqualMemoriesAreEqualData : Prop :=
  ∀ s t : State, s.mem.wf = true → t.mem.wf = true → SameMemory s t → s.mem = t.mem

/-! ### The resolver -/

/-- R57 to R60: Immediate and the zero-page modes never fault; the indexed sum wraps in 8 bits and stays in
page 0. -/
def Obligations.ZeroPageModes : Prop :=
  ∀ (c : Config) (s : State) (p : Addr),
    resolve c s .immediate p = .ok p ∧
    (∃ ea, resolve c s .zeroPage p = .ok ea ∧ ea.toNat = (memRead1 s p).toNat) ∧
    (∃ ea, resolve c s .zeroPageX p = .ok ea ∧ ea.toNat = ((memRead1 s p).toNat + s.x.toNat) % 256) ∧
    (∃ ea, resolve c s .zeroPageY p = .ok ea ∧ ea.toNat = ((memRead1 s p).toNat + s.y.toNat) % 256)

/-- R61 to R63: the Absolute modes at every `p`: a little-endian operand, the zero-extended index added
modulo 65536. Below 0xFFFF no configuration matters; at 0xFFFF the fault, and under the other policy the high
operand byte read at 0x0000, are R31's, by decision D4 (log 1). -/
def Obligations.AbsoluteModes : Prop :=
  ∀ (c : Config) (s : State) (p : Addr),
    (p ≠ 0xFFFF#16 ∨ c.mem16Top = .wrap → ∃ base ex ey,
      base.toNat = (memRead1 s (if p = 0xFFFF#16 then 0x0000#16 else p + 1#16)).toNat * 256 +
        (memRead1 s p).toNat ∧
      resolve c s .absolute p = .ok base ∧
      resolve c s .absoluteX p = .ok ex ∧ ex.toNat = (base.toNat + s.x.toNat) % 65536 ∧
      resolve c s .absoluteY p = .ok ey ∧ ey.toNat = (base.toNat + s.y.toNat) % 65536) ∧
    (p = 0xFFFF#16 → c.mem16Top = .fault →
      resolve c s .absolute p = .error .mem16AtTop ∧ resolve c s .absoluteX p = .error .mem16AtTop ∧
      resolve c s .absoluteY p = .error .mem16AtTop)

/-- R64, R65, R69 (decision D5): the Indirect modes under both values of `ZP_PTR_POLICY`: X is added in 8
bits before the pointer is read, Y modulo 65536 after it. -/
def Obligations.IndirectModes : Prop :=
  ∀ (c : Config) (s : State) (p : Addr),
    (∃ ex, resolve c s .indirectX p = .ok ex ∧
      ex.toNat = pointerAt c s (BitVec.ofNat 8 (((memRead1 s p).toNat + s.x.toNat) % 256))) ∧
    (∃ ey, resolve c s .indirectY p = .ok ey ∧
      ey.toNat = (pointerAt c s (memRead1 s p) + s.y.toNat) % 65536)

/-- R66: resolving NoneAddressing faults with the tag code 9 as payload, for every `p` and every state, and
no run raises it: a step never latches cause 2. The latch and its causes are no part of R66: they are
decisions D8 and D9 (log 6, log 12). -/
def Obligations.NoneAddressingNeverResolves : Prop :=
  (∀ (c : Config) (s : State) (p : Addr),
    resolve c s .noneAddressing p = .error (.unsupportedAddressingMode .noneAddressing)) ∧
  faultPayload (.unsupportedAddressingMode .noneAddressing) = 0x09#8 ∧
  ∀ s t : State, s.faultCause ≠ 2#3 → step s = .next t → t.faultCause ≠ 2#3

/-- R105, R56 (D18, log 12): the resolver's port: no response for a code that is no tag; for the code of a tag
exactly the address `resolve` gives for that tag, or a fault with its payload: 0x09 for the tenth tag, 0x00
for the Absolute modes at 0xFFFF (D4, log 1), and no other. -/
def Obligations.ResolverPortAnswers : Prop :=
  ∀ (c : Config) (s : State) (code : BitVec 4) (p : Addr),
    (9 < code.toNat → resolverPort c s code p = none) ∧
    ∀ m : Mode, modeCode m = code →
      (∀ ea, resolverPort c s code p = some (.ea ea) ↔ resolve c s m p = .ok ea) ∧
      (∀ info, resolverPort c s code p = some (.fault info) ↔
        (code.toNat = 9 ∧ info = 0x09#8) ∨
        (4 ≤ code.toNat ∧ code.toNat ≤ 6 ∧ p = 0xFFFF#16 ∧ c.mem16Top = .fault ∧ info = 0x00#8)) ∧
      resolverPort c s code p ≠ none

/-! ### The host -/

/-- R22, R135: power-on gives every piece of state its value, from any state. That the run state is Running
is decision D6, that the latch is clear D8, that memory is zeroed D26. -/
def Obligations.PowerOnZeroesEverything : Prop :=
  ∀ (c : Config) (s : State), ∃ t, host c .powerOn s = .done t ∧
    t.a = 0x00#8 ∧ t.x = 0x00#8 ∧ t.y = 0x00#8 ∧ t.p = 0x00#8 ∧ t.pc = 0x0000#16 ∧
    (∀ addr : Addr, memRead1 t addr = 0x00#8) ∧
    t.runState = .running ∧ t.faultCause = 0#3 ∧ t.faultInfo = 0x00#8

/-- R23, R136, R142 (D22: from every run state, and the latch is cleared): what reset gives, and that the
machine's reset state is power-on (D26, log 2, log 3) followed by it. -/
def Obligations.ResetLoadsTheVector : Prop :=
  (∀ (c : Config) (s : State), ∃ t, host c .reset s = .done t ∧
    t.a = 0x00#8 ∧ t.x = 0x00#8 ∧ t.p = 0x00#8 ∧
    t.pc.toNat = (memRead1 s 0xFFFD#16).toNat * 256 + (memRead1 s 0xFFFC#16).toNat ∧
    t.runState = .running ∧ t.faultCause = 0#3 ∧ t.faultInfo = 0x00#8) ∧
  State.reset = hostReset powerOn

/-- R137: what reset leaves alone, Y and every cell of memory. -/
def Obligations.ResetLeavesYAndMemory : Prop :=
  ∀ (c : Config) (s : State), ∃ t, host c .reset s = .done t ∧ t.y = s.y ∧ SameMemory s t

/-- R138: reset is idempotent, and it undoes host writes to A, X, P and the program counter made before it,
but not to Y (those writes are decision D15 for P and the program counter). -/
def Obligations.ResetIsIdempotent : Prop :=
  ∀ (s : State) (a x y p : Byte) (pc : Addr),
    hostReset (hostReset s) = hostReset s ∧
    hostReset { hostReset s with a := a, x := x, y := y, p := p, pc := pc } = { hostReset s with y := y }

/-- R108 (D12: the vector wins where they overlap), R109 (D13): what `load` leaves in every cell, that it
changes memory only, and that a program that does not fit changes nothing. -/
def Obligations.LoadCopiesThenWritesTheVector : Prop :=
  ∀ (c : Config) (bytes : List Byte) (s : State), s.mem.wf = true →
    (bytes.length ≤ 0x8000 → ∃ t, host c (.load bytes) s = .done t ∧ { t with mem := s.mem } = s ∧
      ∀ addr : Addr, memRead1 t addr =
        if addr = 0xFFFC#16 then 0x00#8
        else if addr = 0xFFFD#16 then 0x80#8
        else if addr.toNat < 0x8000 then memRead1 s addr
        else (bytes[addr.toNat - 0x8000]?).getD (memRead1 s addr)) ∧
    (0x8000 < bytes.length → host c (.load bytes) s = .programTooLarge s)

/-- R147(e), R108: loading the same bytes twice is loading them once, also for programs that cover the reset
vector (D12, log 14). -/
def Obligations.LoadTwiceIsLoadOnce : Prop :=
  ∀ (bytes : List Byte) (s t u : State), s.mem.wf = true →
    load bytes s = .done t → load bytes t = .done u → u = t

/-- R139, R147(b) (D6, D22, D26): after power-on, load and reset the machine is Running at 0x8000 with A, X,
Y and P zero and the latch clear, whatever the loaded bytes. For programs of 0x7FFD to 0x8000 bytes, which
R147(a) shuts out, the 0x8000 rests on the vector winning over the program, decision D12 (log 14). -/
def Obligations.BootState : Prop :=
  ∀ (bytes : List Byte) (t : State), load bytes powerOn = .done t →
    (hostReset t).pc = 0x8000#16 ∧ (hostReset t).a = 0x00#8 ∧ (hostReset t).x = 0x00#8 ∧
    (hostReset t).y = 0x00#8 ∧ (hostReset t).p = 0x00#8 ∧ (hostReset t).runState = .running ∧
    (hostReset t).faultCause = 0#3 ∧ (hostReset t).mem = t.mem

/-- R104, R112, R25 (D15 for P, the program counter and memory): the host reads back what it writes between
runs, and a write of one field changes no other. -/
def Obligations.HostWritesAreReadBack : Prop :=
  ∀ (c : Config) (s : State) (r : Reg) (v : Byte) (w addr : Addr), s.mem.wf = true →
    (∃ t, host c (.writeReg r v) s = .done t ∧ SameMemory s t ∧ SameRunAndLatch s t ∧
      t.p = s.p ∧ t.pc = s.pc ∧ ∀ q, readReg t q = if q = r then v else readReg s q) ∧
    host c (.writeStatus v) s = .done { s with p := v } ∧
    host c (.writePc w) s = .done { s with pc := w } ∧
    (∃ t, host c (.writeCell addr v) s = .done t ∧ observe t = observe s ∧
      controlOutputs t = controlOutputs s ∧ SameRunAndLatch s t ∧
      ∀ other, memRead1 t other = if other = addr then v else memRead1 s other)

/-! ### The memory port -/

/-- R102, R27 to R31 (the port is decisions D2 and D18, the fault D4, log 1, log 11): every request on the
memory port. A byte read has a zero upper byte, a byte write uses the low 8 bits of `wdata`, a 16-bit access
is little-endian with the address after 0xFFFF being 0x0000, and `fault` is answered for a 16-bit access at
0xFFFF under `MEM16_TOP_POLICY = fault` and for nothing else. A write changes memory only. -/
def Obligations.MemoryPortAnswers : Prop :=
  ∀ (c : Config) (s : State) (addr wdata : Addr), s.mem.wf = true →
    (∃ d, memoryPort c s (.read1 addr) = .data d ∧ d.toNat = (memRead1 s addr).toNat) ∧
    (∃ t, memoryPort c s (.write1 addr wdata) = .written t ∧ { t with mem := s.mem } = s ∧
      ∀ other, (memRead1 t other).toNat =
        if other = addr then wdata.toNat % 256 else (memRead1 s other).toNat) ∧
    (addr = 0xFFFF#16 → c.mem16Top = .fault →
      memoryPort c s (.read2 addr) = .fault ∧ memoryPort c s (.write2 addr wdata) = .fault) ∧
    (addr ≠ 0xFFFF#16 ∨ c.mem16Top = .wrap →
      (∃ d, memoryPort c s (.read2 addr) = .data d ∧
        d.toNat = (memRead1 s (if addr = 0xFFFF#16 then 0x0000#16 else addr + 1#16)).toNat * 256 +
          (memRead1 s addr).toNat) ∧
      ∃ t, memoryPort c s (.write2 addr wdata) = .written t ∧ { t with mem := s.mem } = s ∧
        ∀ other, (memRead1 t other).toNat =
          if other = addr then wdata.toNat % 256
          else if other = (if addr = 0xFFFF#16 then 0x0000#16 else addr + 1#16) then wdata.toNat / 256
          else (memRead1 s other).toNat)
end

