-- ==== Sys2Proof/Laws/Bits.lean ====
section
/-! SUPPORT. The arithmetic as numbers, and the status byte bit by bit. -/

namespace Sys2Proof.Machine

@[simp] theorem pass8_eq (v : Byte) : pass8 v = v := rfl

theorem add8_toNat (v w : Byte) : (add8 v w).toNat = (v.toNat + w.toNat) % 256 := by
  simp [add8, BitVec.toNat_add]

theorem inc8_toNat (v : Byte) : (inc8 v).toNat = (v.toNat + 1) % 256 := by
  simp [inc8, add8_toNat]

theorem zext16_toNat (v : Byte) : (zext16 v).toNat = v.toNat := by
  have := v.isLt
  simp [zext16, BitVec.toNat_setWidth]
  omega

theorem add16_toNat (v w : Addr) : (add16 v w).toNat = (v.toNat + w.toNat) % 65536 := by
  simp [add16, BitVec.toNat_add]

theorem cat16_toNat (hi lo : Byte) : (cat16 hi lo).toNat = hi.toNat * 256 + lo.toNat := by
  have hl := lo.isLt
  have h := Nat.shiftLeft_add_eq_or_of_lt (i := 8) hl hi.toNat
  rw [cat16, BitVec.toNat_append, ← h, Nat.shiftLeft_eq]

theorem lowByte_toNat (v : Addr) : (lowByte v).toNat = v.toNat % 256 := by
  simp [lowByte]

theorem highByte_toNat (v : Addr) : (highByte v).toNat = v.toNat / 256 := by
  have := v.isLt
  simp [highByte, Nat.shiftRight_eq_div_pow]
  omega

/-- The two halves of a 16-bit value put together again. -/
theorem cat16_high_low (v : Addr) : cat16 (highByte v) (lowByte v) = v := by
  apply BitVec.eq_of_toNat_eq
  rw [cat16_toNat, highByte_toNat, lowByte_toNat]
  omega

theorem isZero8_iff (v : Byte) : isZero8 v = true ↔ v = 0x00#8 := by simp [isZero8]

/-- The status byte of `update_zn` as the one expression of R87. -/
theorem znByte_eq (v p : Byte) :
    znByte v p = (p &&& 0x7D#8) ||| (if v = 0x00#8 then 0x02#8 else 0x00#8) ||| (v &&& 0x80#8) := by
  have hmsb : (if msb8 v then 0x80#8 else 0x00#8) = v &&& 0x80#8 := by
    revert v; decide
  simp only [znByte, hmsb, isZero8_iff]

/-- The status byte of `update_zn` keeps the six reserved bits. -/
theorem znByte_reserved (v p : Byte) : znByte v p &&& 0x7D#8 = p &&& 0x7D#8 := by
  unfold znByte
  generalize isZero8 v = z, msb8 v = n
  cases z <;> cases n <;> revert p <;> decide

/-- Bit 1 of the status byte after `update_zn`. -/
theorem znByte_zero (v p : Byte) : (znByte v p).getLsbD 1 = isZero8 v := by
  unfold znByte
  generalize isZero8 v = z, msb8 v = n
  cases z <;> cases n <;> revert p <;> decide

/-- Bit 7 of the status byte after `update_zn`. -/
theorem znByte_negative (v p : Byte) : (znByte v p).getLsbD 7 = msb8 v := by
  unfold znByte
  generalize isZero8 v = z, msb8 v = n
  cases z <;> cases n <;> revert p <;> decide

/-- The six reserved bits of the status byte after `update_zn`, each by itself. -/
theorem znByte_other (v p : Byte) {k : Nat} (h1 : k ≠ 1) (h7 : k ≠ 7) :
    (znByte v p).getLsbD k = p.getLsbD k := by
  by_cases hk : k < 8
  · unfold znByte
    generalize isZero8 v = z, msb8 v = n
    have : k = 0 ∨ k = 2 ∨ k = 3 ∨ k = 4 ∨ k = 5 ∨ k = 6 := by omega
    rcases this with rfl | rfl | rfl | rfl | rfl | rfl <;>
      cases z <;> cases n <;> revert p <;> decide
  · rw [BitVec.getLsbD_of_ge _ _ (by omega), BitVec.getLsbD_of_ge _ _ (by omega)]

end Sys2Proof.Machine
end

