-- ==== Sys2Proof/Laws/State.lean ====
section
/-! SUPPORT. One lemma per field per update of the state, so that no later proof unfolds a record
update, and what each composed operation leaves in each field. -/

namespace Sys2Proof.Machine

variable (s : State)

/-! ### setPc -/

@[simp] theorem setPc_a (v : Addr) : (s.setPc v).a = s.a := rfl
@[simp] theorem setPc_x (v : Addr) : (s.setPc v).x = s.x := rfl
@[simp] theorem setPc_y (v : Addr) : (s.setPc v).y = s.y := rfl
@[simp] theorem setPc_p (v : Addr) : (s.setPc v).p = s.p := rfl
@[simp] theorem setPc_pc (v : Addr) : (s.setPc v).pc = v := rfl
@[simp] theorem setPc_mem (v : Addr) : (s.setPc v).mem = s.mem := rfl
@[simp] theorem setPc_runState (v : Addr) : (s.setPc v).runState = s.runState := rfl
@[simp] theorem setPc_faultCause (v : Addr) : (s.setPc v).faultCause = s.faultCause := rfl
@[simp] theorem setPc_faultInfo (v : Addr) : (s.setPc v).faultInfo = s.faultInfo := rfl

/-! ### setStatus -/

@[simp] theorem setStatus_a (v : Byte) : (s.setStatus v).a = s.a := rfl
@[simp] theorem setStatus_x (v : Byte) : (s.setStatus v).x = s.x := rfl
@[simp] theorem setStatus_y (v : Byte) : (s.setStatus v).y = s.y := rfl
@[simp] theorem setStatus_p (v : Byte) : (s.setStatus v).p = v := rfl
@[simp] theorem setStatus_pc (v : Byte) : (s.setStatus v).pc = s.pc := rfl
@[simp] theorem setStatus_mem (v : Byte) : (s.setStatus v).mem = s.mem := rfl
@[simp] theorem setStatus_runState (v : Byte) : (s.setStatus v).runState = s.runState := rfl
@[simp] theorem setStatus_faultCause (v : Byte) : (s.setStatus v).faultCause = s.faultCause := rfl
@[simp] theorem setStatus_faultInfo (v : Byte) : (s.setStatus v).faultInfo = s.faultInfo := rfl

/-! ### setMem -/

@[simp] theorem setMem_a (m : Memory) : (s.setMem m).a = s.a := rfl
@[simp] theorem setMem_x (m : Memory) : (s.setMem m).x = s.x := rfl
@[simp] theorem setMem_y (m : Memory) : (s.setMem m).y = s.y := rfl
@[simp] theorem setMem_p (m : Memory) : (s.setMem m).p = s.p := rfl
@[simp] theorem setMem_pc (m : Memory) : (s.setMem m).pc = s.pc := rfl
@[simp] theorem setMem_mem (m : Memory) : (s.setMem m).mem = m := rfl
@[simp] theorem setMem_runState (m : Memory) : (s.setMem m).runState = s.runState := rfl
@[simp] theorem setMem_faultCause (m : Memory) : (s.setMem m).faultCause = s.faultCause := rfl
@[simp] theorem setMem_faultInfo (m : Memory) : (s.setMem m).faultInfo = s.faultInfo := rfl

/-! ### setRunState -/

@[simp] theorem setRunState_a (r : RunState) : (s.setRunState r).a = s.a := rfl
@[simp] theorem setRunState_x (r : RunState) : (s.setRunState r).x = s.x := rfl
@[simp] theorem setRunState_y (r : RunState) : (s.setRunState r).y = s.y := rfl
@[simp] theorem setRunState_p (r : RunState) : (s.setRunState r).p = s.p := rfl
@[simp] theorem setRunState_pc (r : RunState) : (s.setRunState r).pc = s.pc := rfl
@[simp] theorem setRunState_mem (r : RunState) : (s.setRunState r).mem = s.mem := rfl
@[simp] theorem setRunState_runState (r : RunState) : (s.setRunState r).runState = r := rfl
@[simp] theorem setRunState_faultCause (r : RunState) : (s.setRunState r).faultCause = s.faultCause := rfl
@[simp] theorem setRunState_faultInfo (r : RunState) : (s.setRunState r).faultInfo = s.faultInfo := rfl

/-! ### setLatch -/

@[simp] theorem setLatch_a (k : BitVec 3) (i : Byte) : (s.setLatch k i).a = s.a := rfl
@[simp] theorem setLatch_x (k : BitVec 3) (i : Byte) : (s.setLatch k i).x = s.x := rfl
@[simp] theorem setLatch_y (k : BitVec 3) (i : Byte) : (s.setLatch k i).y = s.y := rfl
@[simp] theorem setLatch_p (k : BitVec 3) (i : Byte) : (s.setLatch k i).p = s.p := rfl
@[simp] theorem setLatch_pc (k : BitVec 3) (i : Byte) : (s.setLatch k i).pc = s.pc := rfl
@[simp] theorem setLatch_mem (k : BitVec 3) (i : Byte) : (s.setLatch k i).mem = s.mem := rfl
@[simp] theorem setLatch_runState (k : BitVec 3) (i : Byte) : (s.setLatch k i).runState = s.runState := rfl
@[simp] theorem setLatch_faultCause (k : BitVec 3) (i : Byte) : (s.setLatch k i).faultCause = k := rfl
@[simp] theorem setLatch_faultInfo (k : BitVec 3) (i : Byte) : (s.setLatch k i).faultInfo = i := rfl

/-! ### memWrite1 -/

@[simp] theorem memWrite1_a (addr : Addr) (v : Byte) : (memWrite1 s addr v).a = s.a := rfl
@[simp] theorem memWrite1_x (addr : Addr) (v : Byte) : (memWrite1 s addr v).x = s.x := rfl
@[simp] theorem memWrite1_y (addr : Addr) (v : Byte) : (memWrite1 s addr v).y = s.y := rfl
@[simp] theorem memWrite1_p (addr : Addr) (v : Byte) : (memWrite1 s addr v).p = s.p := rfl
@[simp] theorem memWrite1_pc (addr : Addr) (v : Byte) : (memWrite1 s addr v).pc = s.pc := rfl
@[simp] theorem memWrite1_mem (addr : Addr) (v : Byte) : (memWrite1 s addr v).mem = s.mem.write addr.toNat v := rfl
@[simp] theorem memWrite1_runState (addr : Addr) (v : Byte) : (memWrite1 s addr v).runState = s.runState := rfl
@[simp] theorem memWrite1_faultCause (addr : Addr) (v : Byte) : (memWrite1 s addr v).faultCause = s.faultCause := rfl
@[simp] theorem memWrite1_faultInfo (addr : Addr) (v : Byte) : (memWrite1 s addr v).faultInfo = s.faultInfo := rfl

/-! ### setWordAt -/

@[simp] theorem setWordAt_a (addr v : Addr) : (setWordAt s addr v).a = s.a := rfl
@[simp] theorem setWordAt_x (addr v : Addr) : (setWordAt s addr v).x = s.x := rfl
@[simp] theorem setWordAt_y (addr v : Addr) : (setWordAt s addr v).y = s.y := rfl
@[simp] theorem setWordAt_p (addr v : Addr) : (setWordAt s addr v).p = s.p := rfl
@[simp] theorem setWordAt_pc (addr v : Addr) : (setWordAt s addr v).pc = s.pc := rfl
@[simp] theorem setWordAt_mem (addr v : Addr) : (setWordAt s addr v).mem = (s.mem.write addr.toNat (lowByte v)).write (addr + 1#16).toNat (highByte v) := rfl
@[simp] theorem setWordAt_runState (addr v : Addr) : (setWordAt s addr v).runState = s.runState := rfl
@[simp] theorem setWordAt_faultCause (addr v : Addr) : (setWordAt s addr v).faultCause = s.faultCause := rfl
@[simp] theorem setWordAt_faultInfo (addr v : Addr) : (setWordAt s addr v).faultInfo = s.faultInfo := rfl

/-! ### enterFault -/

@[simp] theorem enterFault_a (f : Fault) : (enterFault f s).a = s.a := rfl
@[simp] theorem enterFault_x (f : Fault) : (enterFault f s).x = s.x := rfl
@[simp] theorem enterFault_y (f : Fault) : (enterFault f s).y = s.y := rfl
@[simp] theorem enterFault_p (f : Fault) : (enterFault f s).p = s.p := rfl
@[simp] theorem enterFault_pc (f : Fault) : (enterFault f s).pc = s.pc := rfl
@[simp] theorem enterFault_mem (f : Fault) : (enterFault f s).mem = s.mem := rfl
@[simp] theorem enterFault_runState (f : Fault) : (enterFault f s).runState = .faulted := rfl
@[simp] theorem enterFault_faultCause (f : Fault) : (enterFault f s).faultCause = faultCode f := rfl
@[simp] theorem enterFault_faultInfo (f : Fault) : (enterFault f s).faultInfo = faultPayload f := rfl

/-! ### updateZn -/

@[simp] theorem updateZn_a (v : Byte) : (updateZn v s).a = s.a := rfl
@[simp] theorem updateZn_x (v : Byte) : (updateZn v s).x = s.x := rfl
@[simp] theorem updateZn_y (v : Byte) : (updateZn v s).y = s.y := rfl
@[simp] theorem updateZn_p (v : Byte) : (updateZn v s).p = znByte v s.p := rfl
@[simp] theorem updateZn_pc (v : Byte) : (updateZn v s).pc = s.pc := rfl
@[simp] theorem updateZn_mem (v : Byte) : (updateZn v s).mem = s.mem := rfl
@[simp] theorem updateZn_runState (v : Byte) : (updateZn v s).runState = s.runState := rfl
@[simp] theorem updateZn_faultCause (v : Byte) : (updateZn v s).faultCause = s.faultCause := rfl
@[simp] theorem updateZn_faultInfo (v : Byte) : (updateZn v s).faultInfo = s.faultInfo := rfl

/-! ### hostReset -/

@[simp] theorem hostReset_a : (hostReset s).a = 0x00#8 := rfl
@[simp] theorem hostReset_x : (hostReset s).x = 0x00#8 := rfl
@[simp] theorem hostReset_y : (hostReset s).y = s.y := rfl
@[simp] theorem hostReset_p : (hostReset s).p = 0x00#8 := rfl
@[simp] theorem hostReset_pc : (hostReset s).pc = wordAt s resetVector := rfl
@[simp] theorem hostReset_mem : (hostReset s).mem = s.mem := rfl
@[simp] theorem hostReset_runState : (hostReset s).runState = .running := rfl
@[simp] theorem hostReset_faultCause : (hostReset s).faultCause = 0#3 := rfl
@[simp] theorem hostReset_faultInfo : (hostReset s).faultInfo = 0x00#8 := rfl

/-! ### writeReg, register a -/

@[simp] theorem writeReg_a_a (v : Byte) : (writeReg s .a v).a = v := rfl
@[simp] theorem writeReg_a_x (v : Byte) : (writeReg s .a v).x = s.x := rfl
@[simp] theorem writeReg_a_y (v : Byte) : (writeReg s .a v).y = s.y := rfl
@[simp] theorem writeReg_a_p (v : Byte) : (writeReg s .a v).p = s.p := rfl
@[simp] theorem writeReg_a_pc (v : Byte) : (writeReg s .a v).pc = s.pc := rfl
@[simp] theorem writeReg_a_mem (v : Byte) : (writeReg s .a v).mem = s.mem := rfl
@[simp] theorem writeReg_a_runState (v : Byte) : (writeReg s .a v).runState = s.runState := rfl
@[simp] theorem writeReg_a_faultCause (v : Byte) : (writeReg s .a v).faultCause = s.faultCause := rfl
@[simp] theorem writeReg_a_faultInfo (v : Byte) : (writeReg s .a v).faultInfo = s.faultInfo := rfl

/-! ### writeReg, register x -/

@[simp] theorem writeReg_x_a (v : Byte) : (writeReg s .x v).a = s.a := rfl
@[simp] theorem writeReg_x_x (v : Byte) : (writeReg s .x v).x = v := rfl
@[simp] theorem writeReg_x_y (v : Byte) : (writeReg s .x v).y = s.y := rfl
@[simp] theorem writeReg_x_p (v : Byte) : (writeReg s .x v).p = s.p := rfl
@[simp] theorem writeReg_x_pc (v : Byte) : (writeReg s .x v).pc = s.pc := rfl
@[simp] theorem writeReg_x_mem (v : Byte) : (writeReg s .x v).mem = s.mem := rfl
@[simp] theorem writeReg_x_runState (v : Byte) : (writeReg s .x v).runState = s.runState := rfl
@[simp] theorem writeReg_x_faultCause (v : Byte) : (writeReg s .x v).faultCause = s.faultCause := rfl
@[simp] theorem writeReg_x_faultInfo (v : Byte) : (writeReg s .x v).faultInfo = s.faultInfo := rfl

/-! ### writeReg, register y -/

@[simp] theorem writeReg_y_a (v : Byte) : (writeReg s .y v).a = s.a := rfl
@[simp] theorem writeReg_y_x (v : Byte) : (writeReg s .y v).x = s.x := rfl
@[simp] theorem writeReg_y_y (v : Byte) : (writeReg s .y v).y = v := rfl
@[simp] theorem writeReg_y_p (v : Byte) : (writeReg s .y v).p = s.p := rfl
@[simp] theorem writeReg_y_pc (v : Byte) : (writeReg s .y v).pc = s.pc := rfl
@[simp] theorem writeReg_y_mem (v : Byte) : (writeReg s .y v).mem = s.mem := rfl
@[simp] theorem writeReg_y_runState (v : Byte) : (writeReg s .y v).runState = s.runState := rfl
@[simp] theorem writeReg_y_faultCause (v : Byte) : (writeReg s .y v).faultCause = s.faultCause := rfl
@[simp] theorem writeReg_y_faultInfo (v : Byte) : (writeReg s .y v).faultInfo = s.faultInfo := rfl

/-! ### writeReg, any register -/

@[simp] theorem writeReg_p (r : Reg) (v : Byte) : (writeReg s r v).p = s.p := by
  cases r <;> rfl
@[simp] theorem writeReg_pc (r : Reg) (v : Byte) : (writeReg s r v).pc = s.pc := by
  cases r <;> rfl
@[simp] theorem writeReg_mem (r : Reg) (v : Byte) : (writeReg s r v).mem = s.mem := by
  cases r <;> rfl
@[simp] theorem writeReg_runState (r : Reg) (v : Byte) : (writeReg s r v).runState = s.runState := by
  cases r <;> rfl
@[simp] theorem writeReg_faultCause (r : Reg) (v : Byte) : (writeReg s r v).faultCause = s.faultCause := by
  cases r <;> rfl
@[simp] theorem writeReg_faultInfo (r : Reg) (v : Byte) : (writeReg s r v).faultInfo = s.faultInfo := by
  cases r <;> rfl

/-! ### readReg -/

@[simp] theorem readReg_a : readReg s .a = s.a := rfl
@[simp] theorem readReg_x : readReg s .x = s.x := rfl
@[simp] theorem readReg_y : readReg s .y = s.y := rfl

/-- Reading one register after writing another (or the same). -/
theorem readReg_writeReg (r q : Reg) (v : Byte) :
    readReg (writeReg s r v) q = if q = r then v else readReg s q := by
  cases r <;> cases q <;> rfl

/-! ### Reads of memory see memory only -/

@[simp] theorem memRead1_setPc (v addr : Addr) : memRead1 (s.setPc v) addr = memRead1 s addr := rfl
@[simp] theorem memRead1_setStatus (v : Byte) (addr : Addr) :
    memRead1 (s.setStatus v) addr = memRead1 s addr := rfl
@[simp] theorem memRead1_setRunState (r : RunState) (addr : Addr) :
    memRead1 (s.setRunState r) addr = memRead1 s addr := rfl
@[simp] theorem memRead1_setLatch (k : BitVec 3) (i : Byte) (addr : Addr) :
    memRead1 (s.setLatch k i) addr = memRead1 s addr := rfl
@[simp] theorem memRead1_writeReg (r : Reg) (v : Byte) (addr : Addr) :
    memRead1 (writeReg s r v) addr = memRead1 s addr := by simp [memRead1]
@[simp] theorem memRead1_enterFault (f : Fault) (addr : Addr) :
    memRead1 (enterFault f s) addr = memRead1 s addr := rfl
@[simp] theorem memRead1_updateZn (v : Byte) (addr : Addr) :
    memRead1 (updateZn v s) addr = memRead1 s addr := rfl

/-- Two states with the same memory read the same byte everywhere. -/
theorem memRead1_congr {t : State} (h : t.mem = s.mem) (addr : Addr) :
    memRead1 t addr = memRead1 s addr := by simp [memRead1, h]

/-- Two states with the same fields are the same state. -/
theorem State.ext_fields {s t : State} (ha : s.a = t.a) (hx : s.x = t.x) (hy : s.y = t.y)
    (hp : s.p = t.p) (hpc : s.pc = t.pc) (hm : s.mem = t.mem) (hr : s.runState = t.runState)
    (hc : s.faultCause = t.faultCause) (hi : s.faultInfo = t.faultInfo) : s = t := by
  cases s; cases t; simp_all

end Sys2Proof.Machine
end

