-- ==== Sys2Proof/Laws/Memory.lean ====
section
/-! SUPPORT. The memory: reads after writes, the canonical form and that every memory operation keeps
it, and that equal reads mean equal memories. -/

namespace Sys2Proof.Machine

/-! ### One memory as a list -/

@[simp] theorem Memory.read_nil (addr : Nat) : Memory.read [] addr = unlistedByte := rfl

theorem Memory.read_of_allAbove {m : Memory} {lo addr : Nat} (h : m.allAbove lo = true)
    (hle : addr ≤ lo) : m.read addr = unlistedByte := by
  induction m with
  | nil => rfl
  | cons e m ih =>
    obtain ⟨b, v⟩ := e
    simp only [Memory.allAbove, Bool.and_eq_true, decide_eq_true_eq] at h
    have hne : addr ≠ b := by omega
    simp [Memory.read, hne, ih h.2]

theorem Memory.allAbove_mono {m : Memory} {lo lo' : Nat} (h : m.allAbove lo = true) (hle : lo' ≤ lo) :
    m.allAbove lo' = true := by
  induction m with
  | nil => rfl
  | cons e m ih =>
    obtain ⟨b, v⟩ := e
    simp only [Memory.allAbove, Bool.and_eq_true, decide_eq_true_eq] at h ⊢
    exact ⟨by omega, ih h.2⟩

/-- What the canonical form says of a listed cell and of the rest. -/
theorem Memory.wf_cons {b : Nat} {v : Byte} {m : Memory} :
    Memory.wf ((b, v) :: m) = true ↔
      b < memSize ∧ v ≠ unlistedByte ∧ m.allAbove b = true ∧ m.wf = true := by
  simp [Memory.wf, and_assoc]

/-- A write leaves every other address alone. -/
theorem Memory.read_write_ne {addr other : Nat} (h : other ≠ addr) (m : Memory) (v : Byte) :
    (m.write addr v).read other = m.read other := by
  induction m with
  | nil => by_cases hv : v = unlistedByte <;> simp [Memory.write, Memory.read, hv, h]
  | cons e m ih =>
    obtain ⟨b, w⟩ := e
    simp only [Memory.write]
    split
    · split <;> simp [Memory.read, h]
    · split
      · next hab => subst hab; split <;> simp [Memory.read, h]
      · simp [Memory.read, ih]

/-- A read after a write to the same address gives the value written. -/
theorem Memory.read_write_same {m : Memory} (hm : m.wf = true) (addr : Nat) (v : Byte) :
    (m.write addr v).read addr = v := by
  induction m with
  | nil => by_cases hv : v = unlistedByte <;> simp [Memory.write, Memory.read, hv]
  | cons e m ih =>
    obtain ⟨b, w⟩ := e
    obtain ⟨-, -, habove, hwf⟩ := Memory.wf_cons.mp hm
    simp only [Memory.write]
    split
    · next hlt =>
      split
      · next hv =>
        have hne : addr ≠ b := by omega
        simp [Memory.read, hne, hv, Memory.read_of_allAbove habove (by omega : addr ≤ b)]
      · simp [Memory.read]
    · split
      · next hab =>
        split
        · next hv => rw [hv]; exact Memory.read_of_allAbove habove (by omega)
        · simp [Memory.read]
      · next hab => simp [Memory.read, hab, ih hwf]

theorem Memory.read_write {m : Memory} (hm : m.wf = true) (addr other : Nat) (v : Byte) :
    (m.write addr v).read other = if other = addr then v else m.read other := by
  by_cases h : other = addr
  · subst h; simp [Memory.read_write_same hm]
  · simp [h, Memory.read_write_ne h]

theorem Memory.allAbove_write {m : Memory} {lo addr : Nat} (h : m.allAbove lo = true) (hlo : lo < addr)
    (v : Byte) : (m.write addr v).allAbove lo = true := by
  induction m with
  | nil => by_cases hv : v = unlistedByte <;> simp [Memory.write, Memory.allAbove, hv, hlo]
  | cons e m ih =>
    obtain ⟨b, w⟩ := e
    simp only [Memory.allAbove, Bool.and_eq_true, decide_eq_true_eq] at h
    simp only [Memory.write]
    split
    · split <;> simp [Memory.allAbove, h, hlo]
    · split
      · split <;> simp [Memory.allAbove, h, hlo]
      · simp [Memory.allAbove, h.1, ih h.2]

/-- A write keeps the canonical form. -/
theorem Memory.wf_write {m : Memory} (hm : m.wf = true) {addr : Nat} (haddr : addr < memSize) (v : Byte) :
    (m.write addr v).wf = true := by
  induction m with
  | nil =>
    by_cases hv : v = unlistedByte <;> simp [Memory.write, Memory.wf, Memory.allAbove, hv, haddr]
  | cons e m ih =>
    obtain ⟨b, w⟩ := e
    have hcons := hm
    obtain ⟨hb, hw, habove, hwf⟩ := Memory.wf_cons.mp hm
    simp only [Memory.write]
    split
    · next hlt =>
      split
      · exact hcons
      · next hv =>
        refine Memory.wf_cons.mpr ⟨haddr, hv, ?_, hcons⟩
        simp [Memory.allAbove, hlt, Memory.allAbove_mono habove (by omega : addr ≤ b)]
    · split
      · next hab =>
        subst hab
        split
        · exact hwf
        · next hv => exact Memory.wf_cons.mpr ⟨haddr, hv, habove, hwf⟩
      · next hlt hab =>
        exact Memory.wf_cons.mpr ⟨hb, hw, Memory.allAbove_write habove (by omega) v, ih hwf⟩

/-- A listed cell of a canonical memory reads as something else than an unlisted one. -/
theorem Memory.read_head {b : Nat} {v : Byte} {m : Memory} : Memory.read ((b, v) :: m) b = v := by
  simp [Memory.read]

/-! ### The memory of a state -/

theorem Addr.toNat_lt_memSize (addr : Addr) : addr.toNat < memSize := addr.isLt

/-- A byte write to memory in canonical form, read back at any address. -/
theorem memRead1_memWrite1 {s : State} (hs : s.mem.wf = true) (addr other : Addr) (v : Byte) :
    memRead1 (memWrite1 s addr v) other = if other = addr then v else memRead1 s other := by
  simp only [memRead1, memWrite1_mem, Memory.read_write hs, BitVec.toNat_inj]

theorem memRead1_memWrite1_ne {addr other : Addr} (h : other ≠ addr) (s : State) (v : Byte) :
    memRead1 (memWrite1 s addr v) other = memRead1 s other := by
  simp only [memRead1, memWrite1_mem]
  exact Memory.read_write_ne (by simpa [BitVec.toNat_inj] using h) _ _

theorem memWrite1_wf {s : State} (hs : s.mem.wf = true) (addr : Addr) (v : Byte) :
    (memWrite1 s addr v).mem.wf = true :=
  Memory.wf_write hs (Addr.toNat_lt_memSize addr) v

theorem setWordAt_wf {s : State} (hs : s.mem.wf = true) (addr v : Addr) :
    (setWordAt s addr v).mem.wf = true :=
  memWrite1_wf (memWrite1_wf hs _ _) _ _

theorem memWrite2_wf {c : Config} {s t : State} {addr v : Addr} (hs : s.mem.wf = true)
    (h : memWrite2 c s addr v = .ok t) : t.mem.wf = true := by
  unfold memWrite2 at h
  split at h
  · cases h
  · cases h; exact setWordAt_wf hs addr v

theorem writeBytes_wf (bytes : List Byte) {s : State} (hs : s.mem.wf = true) (addr : Addr) :
    (writeBytes s addr bytes).mem.wf = true := by
  induction bytes generalizing s addr with
  | nil => exact hs
  | cons b bs ih => exact ih (memWrite1_wf hs addr b) _

theorem loadBytes_wf (bytes : List Byte) {s : State} (hs : s.mem.wf = true) :
    (loadBytes bytes s).mem.wf = true :=
  setWordAt_wf (writeBytes_wf bytes hs _) _ _

/-- Writing bytes changes memory only. -/
theorem writeBytes_eq_setMem (bytes : List Byte) (s : State) (addr : Addr) :
    writeBytes s addr bytes = s.setMem (writeBytes s addr bytes).mem := by
  induction bytes generalizing s addr with
  | nil => rfl
  | cons b bs ih => rw [writeBytes, ih]; rfl

/-- `load` changes memory only. -/
theorem loadBytes_eq_setMem (bytes : List Byte) (s : State) :
    loadBytes bytes s = s.setMem (loadBytes bytes s).mem := by
  unfold loadBytes setWordAt memWrite1
  rw [writeBytes_eq_setMem]
  rfl

/-- The reset vector read is a 16-bit read that never faults (R136). -/
theorem memRead2_resetVector (c : Config) (s : State) :
    memRead2 c s resetVector = .ok (wordAt s resetVector) := by
  simp [memRead2, resetVector]

/-- The vector write of `load` is a 16-bit write that never faults (R108). -/
theorem memWrite2_resetVector (c : Config) (s : State) (v : Addr) :
    memWrite2 c s resetVector v = .ok (setWordAt s resetVector v) := by
  simp [memWrite2, resetVector]

end Sys2Proof.Machine
end

