-- ==== Sys2Proof/Laws/Step.lean ====
section
/-! SUPPORT. What decoding, the advance of the program counter, an instruction and a step can do, each
said once: later proofs cite these and unfold nothing. -/

namespace Sys2Proof.Machine

/-! ### Decoding -/

/-- The four cases of the opcode byte, and the rest (R47, R48). -/
theorem decodeOp_cases (op : Byte) :
    (op = 0x00#8 ∧ decodeOp op = some ⟨.brk, .noneAddressing, 0⟩) ∨
    (op = 0xA9#8 ∧ decodeOp op = some ⟨.lda, .immediate, 1⟩) ∨
    (op = 0xAA#8 ∧ decodeOp op = some ⟨.tax, .noneAddressing, 0⟩) ∨
    (op = 0xE8#8 ∧ decodeOp op = some ⟨.inx, .noneAddressing, 0⟩) ∨
    (op ≠ 0x00#8 ∧ op ≠ 0xA9#8 ∧ op ≠ 0xAA#8 ∧ op ≠ 0xE8#8 ∧ decodeOp op = none) := by
  unfold decodeOp
  by_cases h0 : op = 0x00#8
  · exact .inl ⟨h0, by simp [h0]⟩
  by_cases h1 : op = 0xA9#8
  · exact .inr (.inl ⟨h1, by simp [h1]⟩)
  by_cases h2 : op = 0xAA#8
  · exact .inr (.inr (.inl ⟨h2, by simp [h2]⟩))
  by_cases h3 : op = 0xE8#8
  · exact .inr (.inr (.inr (.inl ⟨h3, by simp [h3]⟩)))
  · exact .inr (.inr (.inr (.inr ⟨h0, h1, h2, h3, by simp [h0, h1, h2, h3]⟩)))

/-- What the bytes at the program counter decode to. -/
theorem decode_fetchBytes_cases (s : State) :
    (opcodeAt s = 0x00#8 ∧ decode (fetchBytes s) = .ok (.brk, [memRead1 s (s.pc + 1#16)])) ∨
    (opcodeAt s = 0xA9#8 ∧ decode (fetchBytes s) = .ok (.lda (memRead1 s (s.pc + 1#16)), [])) ∨
    (opcodeAt s = 0xAA#8 ∧ decode (fetchBytes s) = .ok (.tax, [memRead1 s (s.pc + 1#16)])) ∨
    (opcodeAt s = 0xE8#8 ∧ decode (fetchBytes s) = .ok (.inx, [memRead1 s (s.pc + 1#16)])) ∨
    (decodeOp (opcodeAt s) = none ∧ decode (fetchBytes s) = .error (.unimplemented (opcodeAt s))) := by
  rcases decodeOp_cases (opcodeAt s) with h | h | h | h | h
  · exact .inl ⟨h.1, by simp [fetchBytes, decode, h.2, assemble]⟩
  · exact .inr (.inl ⟨h.1, by simp [fetchBytes, decode, h.2, assemble]⟩)
  · exact .inr (.inr (.inl ⟨h.1, by simp [fetchBytes, decode, h.2, assemble]⟩))
  · exact .inr (.inr (.inr (.inl ⟨h.1, by simp [fetchBytes, decode, h.2, assemble]⟩)))
  · have hn := h.2.2.2.2
    exact .inr (.inr (.inr (.inr ⟨hn, by simp [fetchBytes, decode, hn]⟩)))

/-! ### The advance of the program counter -/

theorem pcInc_of_ne {c : Config} {pc : Addr} (h : pc ≠ 0xFFFF#16) : pcInc c pc = .ok (pc + 1#16) := by
  simp [pcInc, h]

/-- Everything an advance can do: it faults with `PcOverflow`, or it gives the address plus 1. -/
theorem pcInc_cases (c : Config) (pc : Addr) :
    (pcInc c pc = .error .pcOverflow ∧ pc = 0xFFFF#16 ∧ c.pcTop = .fault) ∨
    (pcInc c pc = .ok (pc + 1#16) ∧ (pc ≠ 0xFFFF#16 ∨ c.pcTop = .wrap)) := by
  by_cases h : pc = 0xFFFF#16
  · subst h
    cases hc : c.pcTop
    · exact .inl ⟨by simp [pcInc, hc], rfl, rfl⟩
    · exact .inr ⟨by simp [pcInc, hc], .inr rfl⟩
  · exact .inr ⟨pcInc_of_ne h, .inl h⟩

/-! ### The frame of an instruction, and the four meanings -/

/-- Everything the frame of an instruction can do, whatever the body. -/
theorem atomically_cases (c : Config) (s : State) (body : State → Except Fault State) :
    (pcInc c s.pc = .error .pcOverflow ∧ atomically c s body = .next (enterFault .pcOverflow s)) ∨
    (pcInc c s.pc = .ok (s.pc + 1#16) ∧
      ((∃ f, body (s.setPc (s.pc + 1#16)) = .error f ∧ atomically c s body = .next (enterFault f s)) ∨
       (∃ t, body (s.setPc (s.pc + 1#16)) = .ok t ∧ atomically c s body = .next t))) := by
  rcases pcInc_cases c s.pc with ⟨h, -, -⟩ | ⟨h, -⟩
  · exact .inl ⟨h, by simp [atomically, h]⟩
  · refine .inr ⟨h, ?_⟩
    cases hb : body (s.setPc (s.pc + 1#16)) with
    | error f => exact .inl ⟨f, rfl, by simp [atomically, h, hb]⟩
    | ok t => exact .inr ⟨t, rfl, by simp [atomically, h, hb]⟩

/-- The state after BRK, the advance being made. -/
def afterBrk (s : State) : State := (s.setPc (s.pc + 1#16)).setRunState .halted

/-- The state after TAX, the advance being made. -/
def afterTax (s : State) : State := updateZn s.a (writeReg (s.setPc (s.pc + 1#16)) .x s.a)

/-- The state after INX, the advance being made. -/
def afterInx (s : State) : State := updateZn (inc8 s.x) (writeReg (s.setPc (s.pc + 1#16)) .x (inc8 s.x))

/-- The state after LDA, both advances being made. -/
def afterLda (imm : Byte) (s : State) : State :=
  updateZn imm (writeReg (s.setPc (s.pc + 1#16 + 1#16)) .a imm)

theorem execBrkWith_cases (c : Config) (s : State) :
    (pcInc c s.pc = .error .pcOverflow ∧ execBrkWith c s = .next (enterFault .pcOverflow s)) ∨
    (pcInc c s.pc = .ok (s.pc + 1#16) ∧ execBrkWith c s = .next (afterBrk s)) := by
  rcases atomically_cases c s brkBody with h | ⟨hp, ⟨f, hf, -⟩ | ⟨t, ht, h⟩⟩
  · exact .inl h
  · cases hf
  · cases ht; exact .inr ⟨hp, h⟩

theorem execTaxWith_cases (c : Config) (s : State) :
    (pcInc c s.pc = .error .pcOverflow ∧ execTaxWith c s = .next (enterFault .pcOverflow s)) ∨
    (pcInc c s.pc = .ok (s.pc + 1#16) ∧ execTaxWith c s = .next (afterTax s)) := by
  rcases atomically_cases c s taxBody with h | ⟨hp, ⟨f, hf, -⟩ | ⟨t, ht, h⟩⟩
  · exact .inl h
  · cases hf
  · cases ht; exact .inr ⟨hp, h⟩

theorem execInxWith_cases (c : Config) (s : State) :
    (pcInc c s.pc = .error .pcOverflow ∧ execInxWith c s = .next (enterFault .pcOverflow s)) ∨
    (pcInc c s.pc = .ok (s.pc + 1#16) ∧ execInxWith c s = .next (afterInx s)) := by
  rcases atomically_cases c s inxBody with h | ⟨hp, ⟨f, hf, -⟩ | ⟨t, ht, h⟩⟩
  · exact .inl h
  · cases hf
  · cases ht; exact .inr ⟨hp, h⟩

theorem execLdaWith_cases (c : Config) (imm : Byte) (s : State) :
    ((pcInc c s.pc = .error .pcOverflow ∨
        (pcInc c s.pc = .ok (s.pc + 1#16) ∧ pcInc c (s.pc + 1#16) = .error .pcOverflow)) ∧
      execLdaWith c imm s = .next (enterFault .pcOverflow s)) ∨
    (pcInc c s.pc = .ok (s.pc + 1#16) ∧ pcInc c (s.pc + 1#16) = .ok (s.pc + 1#16 + 1#16) ∧
      execLdaWith c imm s = .next (afterLda imm s)) := by
  rcases atomically_cases c s (ldaBody c imm) with ⟨hp, h⟩ | ⟨hp, h⟩
  · exact .inl ⟨.inl hp, h⟩
  · rcases pcInc_cases c (s.pc + 1#16) with ⟨hq, -, -⟩ | ⟨hq, -⟩
    · rcases h with ⟨f, hf, h⟩ | ⟨t, ht, h⟩
      · simp only [ldaBody, setPc_pc, hq] at hf
        cases hf
        exact .inl ⟨.inr ⟨hp, hq⟩, h⟩
      · simp [ldaBody, hq] at ht
    · rcases h with ⟨f, hf, h⟩ | ⟨t, ht, h⟩
      · simp [ldaBody, hq] at hf
      · simp only [ldaBody, setPc_pc, hq] at ht
        cases ht
        exact .inr ⟨hp, hq, h⟩

/-- The dispatch of this machine is the dispatch under the decided configuration. -/
theorem exec_eq_execWith (i : Instr) (s : State) : exec i s = execWith decided i s := by
  cases i <;> rfl

/-- The step of this machine is the step under the decided configuration. -/
theorem step_eq_stepWith (s : State) : step s = stepWith decided s := by
  have : exec = execWith decided := by funext i s; exact exec_eq_execWith i s
  simp [step, stepWith, this]

/-! ### One step -/

/-- Everything a step of a Running machine can do. -/
inductive StepCase (c : Config) (s : State) : State → Prop where
  | overflow (h : pcInc c s.pc = .error .pcOverflow) : StepCase c s (enterFault .pcOverflow s)
  | unimplemented (h : pcInc c s.pc = .ok (s.pc + 1#16)) (hop : decodeOp (opcodeAt s) = none) :
      StepCase c s (enterFault (.unimplementedOpcode (opcodeAt s)) s)
  | brk (h : pcInc c s.pc = .ok (s.pc + 1#16)) (hop : opcodeAt s = 0x00#8) : StepCase c s (afterBrk s)
  | tax (h : pcInc c s.pc = .ok (s.pc + 1#16)) (hop : opcodeAt s = 0xAA#8) : StepCase c s (afterTax s)
  | inx (h : pcInc c s.pc = .ok (s.pc + 1#16)) (hop : opcodeAt s = 0xE8#8) : StepCase c s (afterInx s)
  | operandOverflow (h : pcInc c s.pc = .ok (s.pc + 1#16)) (hop : opcodeAt s = 0xA9#8)
      (h2 : pcInc c (s.pc + 1#16) = .error .pcOverflow) : StepCase c s (enterFault .pcOverflow s)
  | lda (h : pcInc c s.pc = .ok (s.pc + 1#16)) (hop : opcodeAt s = 0xA9#8)
      (h2 : pcInc c (s.pc + 1#16) = .ok (s.pc + 1#16 + 1#16)) :
      StepCase c s (afterLda (memRead1 s (s.pc + 1#16)) s)

/-- A Running machine takes its step, and the step is one of the cases. -/
theorem stepWith_cases (c : Config) {s : State} (hr : s.runState = .running) :
    ∃ t, stepWith c s = .next t ∧ StepCase c s t := by
  rcases decode_fetchBytes_cases s with ⟨ho, hd⟩ | ⟨ho, hd⟩ | ⟨ho, hd⟩ | ⟨ho, hd⟩ | ⟨ho, hd⟩
  · simp only [stepWith, stepBy, hr, hd, execWith]
    rcases execBrkWith_cases c s with ⟨h, he⟩ | ⟨h, he⟩
    · exact ⟨_, he, .overflow h⟩
    · exact ⟨_, he, .brk h ho⟩
  · simp only [stepWith, stepBy, hr, hd, execWith]
    rcases execLdaWith_cases c (memRead1 s (s.pc + 1#16)) s with ⟨h | ⟨h, h2⟩, he⟩ | ⟨h, h2, he⟩
    · exact ⟨_, he, .overflow h⟩
    · exact ⟨_, he, .operandOverflow h ho h2⟩
    · exact ⟨_, he, .lda h ho h2⟩
  · simp only [stepWith, stepBy, hr, hd, execWith]
    rcases execTaxWith_cases c s with ⟨h, he⟩ | ⟨h, he⟩
    · exact ⟨_, he, .overflow h⟩
    · exact ⟨_, he, .tax h ho⟩
  · simp only [stepWith, stepBy, hr, hd, execWith]
    rcases execInxWith_cases c s with ⟨h, he⟩ | ⟨h, he⟩
    · exact ⟨_, he, .overflow h⟩
    · exact ⟨_, he, .inx h ho⟩
  · simp only [stepWith, stepBy, hr, hd]
    rcases atomically_cases c s (fun _ => .error (.unimplementedOpcode (opcodeAt s))) with
      ⟨h, he⟩ | ⟨h, ⟨f, hf, he⟩ | ⟨t, ht, -⟩⟩
    · exact ⟨_, he, .overflow h⟩
    · cases hf; exact ⟨_, he, .unimplemented h ho⟩
    · cases ht

/-- The cases exclude each other: a step has one outcome. -/
theorem StepCase.unique {c : Config} {s t u : State} (ht : StepCase c s t) (hu : StepCase c s u) :
    t = u := by
  have h0 : decodeOp 0x00#8 ≠ none := by decide
  have h1 : decodeOp 0xA9#8 ≠ none := by decide
  have h2 : decodeOp 0xAA#8 ≠ none := by decide
  have h3 : decodeOp 0xE8#8 ≠ none := by decide
  cases ht <;> cases hu <;> simp_all

/-- A Running machine in one of the cases takes that step. -/
theorem StepCase.stepWith_eq {c : Config} {s t : State} (h : StepCase c s t)
    (hr : s.runState = .running) : stepWith c s = .next t := by
  obtain ⟨u, hu, hc⟩ := stepWith_cases c hr
  rw [hu, h.unique hc]

/-- If a step answers a next state, the machine was Running and the step is one of the cases. -/
theorem stepWith_next {c : Config} {s t : State} (h : stepWith c s = .next t) :
    s.runState = .running ∧ StepCase c s t := by
  cases hr : s.runState with
  | running =>
    obtain ⟨t', ht', hc⟩ := stepWith_cases c hr
    rw [ht'] at h
    cases h
    exact ⟨rfl, hc⟩
  | halted => simp [stepWith, stepBy, hr] at h
  | faulted => simp [stepWith, stepBy, hr] at h

theorem step_next {s t : State} (h : step s = .next t) :
    s.runState = .running ∧ StepCase decided s t :=
  stepWith_next (step_eq_stepWith s ▸ h)

/-! ### Runs -/

theorem runSteps_of_next {c : Config} {s t : State} (h : stepWith c s = .next t) (n : Nat) :
    runSteps c (n + 1) s = runSteps c n t := by simp [runSteps, h]

theorem runSteps_of_not_running {c : Config} {s : State} (h : s.runState ≠ .running) (n : Nat) :
    runSteps c n s = s := by
  cases n with
  | zero => rfl
  | succ n => cases hr : s.runState <;> simp_all [runSteps, stepWith, stepBy]

/-- What one step keeps, a run keeps. -/
theorem runSteps_induct {c : Config} {Q : State → Prop}
    (hstep : ∀ s t, Q s → stepWith c s = .next t → Q t) (n : Nat) {s : State} (hs : Q s) :
    Q (runSteps c n s) := by
  induction n generalizing s with
  | zero => exact hs
  | succ n ih =>
    simp only [runSteps]
    split
    · next t h => exact ih (hstep s t hs h)
    · exact hs
    · exact hs

end Sys2Proof.Machine
end

