-- ==== Sys2Proof/Laws/Host.lean ====
section
/-! SUPPORT. What the host's operations and the resolver's port do, each said once. -/

namespace Sys2Proof.Machine

/-- The bytes a copy leaves in memory, where it does not run past the top. -/
theorem memRead1_writeBytes (bytes : List Byte) {s : State} (hs : s.mem.wf = true) (addr other : Addr)
    (hfit : addr.toNat + bytes.length ≤ 0x10000) :
    memRead1 (writeBytes s addr bytes) other =
      if addr.toNat ≤ other.toNat then
        (bytes[other.toNat - addr.toNat]?).getD (memRead1 s other)
      else memRead1 s other := by
  induction bytes generalizing s addr with
  | nil => simp [writeBytes]
  | cons b bs ih =>
    simp only [List.length_cons] at hfit
    rw [writeBytes]
    cases bs with
    | nil =>
      rw [writeBytes, memRead1_memWrite1 hs]
      by_cases h : other = addr
      · subst h; simp
      · have hne : other.toNat ≠ addr.toNat := by simpa [BitVec.toNat_inj] using h
        by_cases hle : addr.toNat ≤ other.toNat
        · obtain ⟨k, hk⟩ : ∃ k, other.toNat - addr.toNat = k + 1 := ⟨other.toNat - addr.toNat - 1, by omega⟩
          simp [h, hle, hk]
        · simp [h, hle]
    | cons b2 bs2 =>
      have hlt := addr.isLt
      simp only [List.length_cons] at hfit
      have hnext : (addr + 1#16).toNat = addr.toNat + 1 := by
        rw [BitVec.toNat_add]
        simp
        omega
      rw [ih (memWrite1_wf hs addr b) (addr + 1#16) (by simp only [hnext, List.length_cons]; omega), hnext,
        memRead1_memWrite1 hs]
      by_cases h : other = addr
      · subst h; simp
      · have hne : other.toNat ≠ addr.toNat := by simpa [BitVec.toNat_inj] using h
        by_cases hle : addr.toNat ≤ other.toNat
        · obtain ⟨k, hk⟩ : ∃ k, other.toNat = addr.toNat + 1 + k := ⟨other.toNat - addr.toNat - 1, by omega⟩
          have h1 : other.toNat - (addr.toNat + 1) = k := by omega
          have h2 : other.toNat - addr.toNat = k + 1 := by omega
          simp [h, hle, h1, h2, show addr.toNat + 1 ≤ other.toNat by omega]
        · simp [h, hle, show ¬ addr.toNat + 1 ≤ other.toNat by omega]

/-- Everything `load` can answer (R108, R109). -/
theorem load_cases (bytes : List Byte) (s : State) :
    (bytes.length ≤ 0x8000 ∧ load bytes s = .done (loadBytes bytes s)) ∨
    (0x8000 < bytes.length ∧ load bytes s = .programTooLarge s) := by
  by_cases h : 0x8000 + bytes.length ≤ 0x10000
  · exact .inl ⟨by omega, by simp [load, programFits, h]⟩
  · exact .inr ⟨by omega, by simp [load, programFits, h]⟩

/-- Everything `run` can answer (R110). -/
theorem run_cases (c : Config) (s : State) :
    (s.runState = .running ∧ (runSteps c runBound s).runState = .running ∧ run c s = .noEnd) ∨
    (s.runState = .running ∧ (runSteps c runBound s).runState ≠ .running ∧
      run c s = .done (runSteps c runBound s)) ∨
    (s.runState = .halted ∧ run c s = .refused .runWhileHalted) ∨
    (s.runState = .faulted ∧ run c s = .refused .runWhileFaulted) := by
  cases hr : s.runState with
  | running =>
    by_cases h : (runSteps c runBound s).runState = .running
    · exact .inl ⟨rfl, h, by simp only [run, hr, h, if_true]⟩
    · exact .inr (.inl ⟨rfl, h, by simp only [run, hr, h, if_false]⟩)
  | halted => exact .inr (.inr (.inl ⟨rfl, by simp [run, hr]⟩))
  | faulted => exact .inr (.inr (.inr ⟨rfl, by simp [run, hr]⟩))

/-- Everything `load_and_run` can answer (R111): a run of the machine loaded and reset, or no more than the
failed load. -/
theorem loadAndRun_cases (c : Config) (bytes : List Byte) (s : State) :
    (bytes.length ≤ 0x8000 ∧ loadAndRun c bytes s = run c (hostReset (loadBytes bytes s))) ∨
    (0x8000 < bytes.length ∧ loadAndRun c bytes s = .programTooLarge s) := by
  rcases load_cases bytes s with ⟨hlen, h⟩ | ⟨hlen, h⟩
  · exact .inl ⟨hlen, by rw [loadAndRun, h]⟩
  · exact .inr ⟨hlen, by rw [loadAndRun, h]⟩

/-- The port's answer for the code of a tag is the resolver's for that tag (R105). -/
theorem resolverPort_modeCode (c : Config) (s : State) (m : Mode) (p : Addr) :
    resolverPort c s (modeCode m) p =
      some (match resolve c s m p with
        | .ok addr => .ea addr
        | .error f => .fault (faultPayload f)) := by
  have hm : modeOfCode (modeCode m) = some m := by cases m <;> rfl
  rw [resolverPort, hm]
  cases h : resolve c s m p <;> simp [h]

/-- The State right after reset is power-on followed by the host's reset (R22, R23, R135, R136). -/
theorem reset_eq_hostReset_powerOn : State.reset = hostReset powerOn := by decide

end Sys2Proof.Machine
end

