-- ==== Sys2Proof/Laws/Operands.lean ====
section
/-! SUPPORT. What a 16-bit read, a zero-page pointer read and the resolver can answer. -/

namespace Sys2Proof.Machine

/-- Everything a 16-bit read can do (R29, R31). -/
theorem memRead2_cases (c : Config) (s : State) (addr : Addr) :
    (memRead2 c s addr = .error .mem16AtTop ∧ addr = 0xFFFF#16 ∧ c.mem16Top = .fault) ∨
    (memRead2 c s addr = .ok (wordAt s addr) ∧ (addr ≠ 0xFFFF#16 ∨ c.mem16Top = .wrap)) := by
  unfold memRead2
  split
  · next h => exact .inl ⟨rfl, h.1, h.2⟩
  · next h =>
    refine .inr ⟨rfl, ?_⟩
    by_cases ha : addr = 0xFFFF#16
    · right
      cases hc : c.mem16Top
      · exact absurd ⟨ha, hc⟩ h
      · rfl
    · exact .inl ha

/-- The 16-bit value at an address, as a number (R32). -/
theorem wordAt_toNat (s : State) (addr : Addr) :
    (wordAt s addr).toNat = (memRead1 s (addr + 1#16)).toNat * 256 + (memRead1 s addr).toNat := by
  rw [wordAt, cat16_toNat]

/-- A zero-page address is never 0xFFFF, so its 16-bit read never faults (R69). -/
theorem memRead2_zext16 (c : Config) (s : State) (ptr : Byte) :
    memRead2 c s (zext16 ptr) = .ok (wordAt s (zext16 ptr)) := by
  rcases memRead2_cases c s (zext16 ptr) with ⟨-, h, -⟩ | ⟨h, -⟩
  · have hlt := ptr.isLt
    have := congrArg BitVec.toNat h
    rw [zext16_toNat] at this
    simp at this
    omega
  · exact h

/-- The next byte's address inside the zero-page is the next address, but at 0xFF (R69). -/
theorem zext16_succ {ptr : Byte} (h : ptr ≠ 0xFF#8) : zext16 (add8 ptr 1#8) = zext16 ptr + 1#16 := by
  revert ptr; decide

/-- The two pointer policies differ at 0xFF only (R69). -/
theorem zpPtr16_of_ne {ptr : Byte} (h : ptr ≠ 0xFF#8) (c : Config) (s : State) :
    zpPtr16 c s ptr = wordAt s (zext16 ptr) := by
  unfold zpPtr16
  split
  · rfl
  · rw [zext16_succ h, wordAt]

/-- The only faults of the resolver (R55): the tenth tag, and the Absolute modes at 0xFFFF. -/
theorem resolve_error {c : Config} {s : State} {m : Mode} {p : Addr} {f : Fault}
    (h : resolve c s m p = .error f) :
    (m = .noneAddressing ∧ f = .unsupportedAddressingMode .noneAddressing) ∨
    ((m = .absolute ∨ m = .absoluteX ∨ m = .absoluteY) ∧ f = .mem16AtTop ∧ p = 0xFFFF#16 ∧
      c.mem16Top = .fault) := by
  rcases memRead2_cases c s p with ⟨hr, hp, hc⟩ | ⟨hr, -⟩ <;>
    cases m <;> simp_all [resolve, indexed]

end Sys2Proof.Machine
end

