-- ==== Sys2Proof/Laws/PerInstr.lean ====
section
/-! SUPPORT. The statements made per instruction: the family RoundTrip, decoding the encoding of one
instruction, whatever follows it. -/

namespace Sys2Proof.Laws.RoundTrip

/-- Decoding the bytes of the instruction gives it back with the bytes after it. -/
def Statement (i : Instr) : Prop := ∀ rest : List Byte, decode (encode i ++ rest) = .ok (i, rest)

theorem brk : Statement .brk := fun _ => rfl
theorem lda (imm : Byte) : Statement (.lda imm) := fun _ => rfl
theorem tax : Statement .tax := fun _ => rfl
theorem inx : Statement .inx := fun _ => rfl

end Sys2Proof.Laws.RoundTrip
end

