-- ==== Sys2Proof/Tests/Slice0.lean ====
section
/-! SUPPORT. The model's own tests, each expected value taken from the vectors of spec 95_test_vectors.md
(named in the comments) or from the encodings of opcode_table.json, and for every statement with
hypotheses a witness that meets them. -/

namespace Sys2Proof.Tests

open Sys2Proof.Machine Sys2Proof.Spec

/-! ### Well-formedness: what each check refuses -/

theorem test_wf_accepts_every_instr : Instr.wellFormed (.lda 0xFF#8) = true := by decide
/-- 90_conflicts.md C1: "0 for Immediate" is not the operand count. -/
theorem test_wf_refuses_immediate_without_operand :
    Descriptor.wellFormed ⟨.lda, .immediate, 0⟩ = false := by decide
theorem test_wf_refuses_mode_code_10 : isModeCode 10#4 = false := by decide
/-- T6.4: 0x8001 bytes do not fit. -/
theorem test_wf_refuses_long_program : programFits (List.replicate 0x8001 0x11#8) = false := by
  rw [programFits, List.length_replicate]; decide

/-! ### Decoding: words written out from the encodings -/

theorem test_decode_brk : decode [0b00000000#8, 0xFF#8] = .ok (.brk, [0xFF#8]) := by decide
theorem test_decode_lda : decode [0b10101001#8, 0b01111111#8] = .ok (.lda 0x7F#8, []) := by decide
theorem test_decode_tax : decode [0b10101010#8] = .ok (.tax, []) := by decide
theorem test_decode_inx : decode [0b11101000#8] = .ok (.inx, []) := by decide
/-- T3.26: 0xEA is not a no-op. -/
theorem test_decode_refuses_nop : decode [0xEA#8] = .error (.unimplemented 0xEA#8) := by decide
theorem test_decode_refuses_short_lda : decode [0xA9#8] = .error .truncated := by decide
theorem test_decode_table_word : decodeTableWord 16 0xC0A9 = some (.lda 0xC0#8) := by decide
theorem test_decode_table_word_short : decodeTableWord 8 0xA9 = some (.lda 0x00#8) := by decide
theorem test_spelling : spelling (.lda 0x7F#8) = "LDA #$7F" := by decide

/-! ### One step -/

/-- The state a step leads to, where it leads to one. -/
def after : Host.Outcome State Fault Refusal → Option State
  | .next s => some s
  | _ => none

/-- A Running machine with two bytes of memory from the program counter on. -/
def at2 (pc : Addr) (b0 b1 : Byte) (a x y p : Byte) : State :=
  memWrite1 (memWrite1 { State.reset with pc := pc, a := a, x := x, y := y, p := p } pc b0) (pc + 1#16) b1

/-- T3.4: X and Y untouched. -/
theorem test_lda_negative :
    (after (step (at2 0x8000#16 0xA9#8 0xFF#8 0x00#8 0x12#8 0x34#8 0x00#8))).map observe =
      some ⟨0xFF#8, 0x12#8, 0x34#8, 0x80#8, 0x8002#16⟩ := by decide
/-- T3.7: the operand at 0xFFFF; A, P and pc keep their values. -/
theorem test_lda_operand_at_top :
    after (step (at2 0xFFFE#16 0xA9#8 0x33#8 0x11#8 0x00#8 0x00#8 0x80#8)) =
      some (faultedWith (at2 0xFFFE#16 0xA9#8 0x33#8 0x11#8 0x00#8 0x00#8 0x80#8) 3#3 0x00#8) := by decide
/-- T3.8: the same under wrap. -/
theorem test_lda_operand_at_top_wraps :
    (after (stepWith { pcTop := .wrap } (at2 0xFFFE#16 0xA9#8 0x33#8 0x00#8 0x00#8 0x00#8 0x00#8))).map
      observe = some ⟨0x33#8, 0x00#8, 0x00#8, 0x00#8, 0x0000#16⟩ := by decide
/-- T3.10: X's old value does not matter. -/
theorem test_tax_zero :
    (after (step (at2 0x8000#16 0xAA#8 0x00#8 0x00#8 0x77#8 0x00#8 0x00#8))).map observe =
      some ⟨0x00#8, 0x00#8, 0x00#8, 0x02#8, 0x8001#16⟩ := by decide
/-- T3.12: the flags are recomputed, the reserved bits kept. -/
theorem test_tax_negative_keeps_reserved :
    (after (step (at2 0x8000#16 0xAA#8 0x00#8 0xFF#8 0xFF#8 0x99#8 0x7D#8))).map observe =
      some ⟨0xFF#8, 0xFF#8, 0x99#8, 0xFD#8, 0x8001#16⟩ := by decide
/-- T3.15: the wrap through zero. -/
theorem test_inx_wraps :
    (after (step (at2 0x8000#16 0xE8#8 0x00#8 0x00#8 0xFF#8 0x00#8 0x80#8))).map observe =
      some ⟨0x00#8, 0x00#8, 0x00#8, 0x02#8, 0x8001#16⟩ := by decide
/-- T3.17: A, Y and the reserved bits untouched, Z cleared. -/
theorem test_inx_keeps_reserved :
    (after (step (at2 0x8000#16 0xE8#8 0x00#8 0xAB#8 0x41#8 0xCD#8 0x7F#8))).map observe =
      some ⟨0xAB#8, 0x42#8, 0xCD#8, 0x7D#8, 0x8001#16⟩ := by decide
/-- T3.20: a BRK at 0xFFFE halts. -/
theorem test_brk_below_top :
    (after (step (at2 0xFFFE#16 0x00#8 0x00#8 0x00#8 0x00#8 0x00#8 0xFF#8))).map
      (fun t => (t.runState, t.pc, t.p)) = some (.halted, 0xFFFF#16, 0xFF#8) := by decide
/-- T3.21: a BRK at 0xFFFF faults. -/
theorem test_brk_at_top :
    (after (step { State.reset with pc := 0xFFFF#16 })).map (fun t => (t.pc, controlOutputs t)) =
      some (0xFFFF#16, ⟨false, true, 3#3, 0x00#8⟩) := by decide
/-- T3.26: an unimplemented opcode. -/
theorem test_unimplemented_opcode :
    (after (step (at2 0x8000#16 0xEA#8 0x00#8 0x00#8 0x00#8 0x00#8 0x00#8))).map
      (fun t => (t.pc, controlOutputs t)) = some (0x8000#16, ⟨false, true, 1#3, 0xEA#8⟩) := by decide
/-- The first step after reset runs a placed word. -/
theorem test_placed_word_runs :
    (after (step (State.reset.withFetchWord 16 0x05A9))).map observe =
      some ⟨0x05#8, 0x00#8, 0x00#8, 0x00#8, 0x0002#16⟩ := by decide

/-! ### The resolver (T4), memory (T8), flags (T2) -/

/-- A machine with X = x, Y = y and the listed cells. -/
def cells (x y : Byte) (m : Memory) : State := { State.reset with x := x, y := y, mem := m }

/-- T4.5: 8-bit wrap. -/
theorem test_resolve_zeroPageX :
    resolve decided (cells 0xFF#8 0x00#8 [(0x8001, 0x80#8)]) .zeroPageX 0x8001#16 = .ok 0x007F#16 := by decide
/-- T4.8: X is not read. -/
theorem test_resolve_zeroPageY :
    resolve decided (cells 0x01#8 0x20#8 [(0x8001, 0xF0#8)]) .zeroPageY 0x8001#16 = .ok 0x0010#16 := by decide
/-- T4.10: the highest legal operand address. -/
theorem test_resolve_absolute :
    resolve decided (cells 0x00#8 0x00#8 [(0xFFFE, 0x34#8), (0xFFFF, 0x12#8)]) .absolute 0xFFFE#16 =
      .ok 0x1234#16 := by decide
/-- T4.11: the top, under both policies. -/
theorem test_resolve_absolute_top :
    resolve decided (cells 0x00#8 0x00#8 [(0x0000, 0x12#8), (0xFFFF, 0x34#8)]) .absolute 0xFFFF#16 =
      .error .mem16AtTop ∧
    resolve { mem16Top := .wrap } (cells 0x00#8 0x00#8 [(0x0000, 0x12#8), (0xFFFF, 0x34#8)]) .absolute
      0xFFFF#16 = .ok 0x1234#16 := by decide
/-- T4.14: the index is zero-extended. -/
theorem test_resolve_absoluteX :
    resolve decided (cells 0xFF#8 0x00#8 [(0x8002, 0x20#8)]) .absoluteX 0x8001#16 = .ok 0x20FF#16 := by decide
/-- T4.16: the 16-bit wrap. -/
theorem test_resolve_absoluteY :
    resolve decided (cells 0x00#8 0xFF#8 [(0x8001, 0xF0#8), (0x8002, 0xFF#8)]) .absoluteY 0x8001#16 =
      .ok 0x00EF#16 := by decide
/-- T4.19: the pointer at 0xFF, under both policies. -/
theorem test_resolve_indirectX :
    (let s := cells 0x01#8 0x00#8 [(0x0000, 0x56#8), (0x00FF, 0x34#8), (0x0100, 0x12#8), (0x8001, 0xFE#8)]
     resolve decided s .indirectX 0x8001#16 = .ok 0x1234#16 ∧
     resolve { zpPtr := .wrapPage0 } s .indirectX 0x8001#16 = .ok 0x5634#16) := by decide
/-- T4.20: Y is added after the pointer is read. -/
theorem test_resolve_indirectY :
    resolve decided (cells 0x00#8 0x10#8 [(0x0086, 0x28#8), (0x0087, 0x40#8), (0x8001, 0x86#8)]) .indirectY
      0x8001#16 = .ok 0x4038#16 := by decide
/-- T4.23 through the port. -/
theorem test_resolver_port_none :
    resolverPort decided State.reset 9#4 0x8001#16 = some (.fault 0x09#8) := by decide
/-- T8.2: an odd address, little-endian. -/
theorem test_memWrite2_odd :
    (match memWrite2 decided State.reset 0x2001#16 0xBEEF#16 with
     | .ok t => (memRead1 t 0x2001#16, memRead1 t 0x2002#16)
     | .error _ => (0x00#8, 0x00#8)) = (0xEF#8, 0xBE#8) := by decide
/-- T2.6, T2.12. -/
theorem test_update_zn : znByte 0x00#8 0xFF#8 = 0x7F#8 ∧ znByte 0xC3#8 0x41#8 = 0xC1#8 := by decide

/-! ### The host's operations (T5, T6, T9) -/

/-- T5.1: Y survives reset. -/
theorem test_reset_keeps_y :
    observe (hostReset (loadBytes [0x00#8]
      { powerOn with y := 0x55#8, a := 0x11#8, x := 0x22#8, p := 0xFF#8 })) =
      ⟨0x00#8, 0x00#8, 0x55#8, 0x00#8, 0x8000#16⟩ := by decide
/-- T5.3: the vector is little-endian. -/
theorem test_reset_vector :
    (hostReset { powerOn with mem := [(0xFFFC, 0x34#8), (0xFFFD, 0x12#8)] }).pc = 0x1234#16 := by decide
/-- T6.1: what load leaves. -/
theorem test_load :
    load [0xA9#8, 0x05#8, 0x00#8] powerOn =
      .done { powerOn with mem := [(0x8000, 0xA9#8), (0x8001, 0x05#8), (0xFFFD, 0x80#8)] } := by decide
/-- T9.1: a second run without reset is refused. -/
theorem test_run_refused :
    host decided .run { State.reset with runState := .halted } = .refused .runWhileHalted := by decide

/-! ### Witnesses: for each statement with hypotheses, data that meets them -/

/-- A machine in each run state. -/
def halted : State := { State.reset with runState := .halted }
def faulted : State := faultedWith State.reset 1#3 0xEA#8

theorem witness_EncodeOfDecode : decode [0xA9#8, 0x05#8, 0xAA#8] = .ok (.lda 0x05#8, [0xAA#8]) := by decide

theorem witness_LengthFromFirstByte :
    decode (0xA9#8 :: [0x05#8, 0xAA#8]) = .ok (.lda 0x05#8, [0xAA#8]) := by decide

theorem witness_OtherOpcodesFault :
    (at2 0xFFFE#16 0xEA#8 0x00#8 0 0 0 0).runState = .running ∧
    (at2 0xFFFE#16 0xEA#8 0x00#8 0 0 0 0).pc ≠ 0xFFFF#16 ∧
    memRead1 (at2 0xFFFE#16 0xEA#8 0x00#8 0 0 0 0) 0xFFFE#16 ∉ opcodes := by decide

theorem witness_PortCodes : 10 ≤ (10#4).toNat ∧ (0x01#8 : Byte) ∉ opcodes := by decide

theorem witness_LdaLoadsItsOperand :
    (let s := at2 0xFFFD#16 0xA9#8 0x05#8 0 0 0 0
     s.pc ≠ 0xFFFF#16 ∧ s.pc ≠ 0xFFFE#16 ∧ s.runState = .running ∧ memRead1 s s.pc = 0xA9#8 ∧
     resolve decided s .immediate (s.pc + 1#16) = .ok 0xFFFE#16) ∧
    pcInc decided 0xFFFF#16 = .error .pcOverflow ∧
    pcInc decided 0xFFFE#16 = .ok 0xFFFF#16 := by decide

/-- The boundary of the clauses of TaxCopiesTheAccumulator, InxAddsOneToX and BrkHalts. -/
theorem witness_OneByteInstructions :
    ({ State.reset with pc := 0xFFFE#16 } : State).pc ≠ 0xFFFF#16 ∧
    pcInc decided ({ State.reset with pc := 0xFFFF#16 } : State).pc = .error .pcOverflow := by decide

theorem witness_InstructionsTrapAtTheTop :
    ({ State.reset with pc := 0xFFFF#16 } : State).pc = 0xFFFF#16 ∧
    ({ State.reset with pc := 0xFFFE#16 } : State).pc = 0xFFFE#16 := by decide

theorem witness_UnderWrapEveryInstructionCompletes : ({ pcTop := .wrap } : Config).pcTop = .wrap := by decide

theorem witness_LdaFrame :
    after (exec (.lda 0x80#8) State.reset) =
      some { State.reset with a := 0x80#8, p := 0x80#8, pc := 0x0002#16 } ∧
    after (exec (.lda 0x80#8) { State.reset with pc := 0xFFFE#16 }) =
      some (faultedWith { State.reset with pc := 0xFFFE#16 } 3#3 0x00#8) := by decide

theorem witness_TaxInxFrame :
    after (exec .tax State.reset) = some { State.reset with p := 0x02#8, pc := 0x0001#16 } ∧
    after (exec .inx State.reset) = some { State.reset with x := 0x01#8, pc := 0x0001#16 } := by decide

theorem witness_BrkFrame :
    after (exec .brk State.reset) = some { State.reset with runState := .halted, pc := 0x0001#16 } := by decide

theorem witness_StepRunsTheInstructionAtPc :
    (at2 0x8000#16 0xA9#8 0x05#8 0 0 0 0).runState = .running ∧
    Instr.wellFormed (.lda 0x05#8) = true ∧
    ∀ (k : Nat) (h : k < (encode (.lda 0x05#8)).length),
      memRead1 (at2 0x8000#16 0xA9#8 0x05#8 0 0 0 0)
        ((at2 0x8000#16 0xA9#8 0x05#8 0 0 0 0).pc + BitVec.ofNat 16 k) = (encode (.lda 0x05#8))[k] := by
  refine ⟨by decide, by decide, ?_⟩
  intro k h
  have hk : k = 0 ∨ k = 1 := by simp [encode] at h; omega
  rcases hk with rfl | rfl <;> rfl

theorem witness_PlacedWordIsRun :
    State.reset.runState = .running ∧ State.reset.mem.wf = true ∧
    decodeTableWord 16 0x05A9 = some (.lda 0x05#8) := by decide

theorem witness_StepIsTheLoopContract : State.reset.runState = .running := by decide

theorem witness_StepExistsExactlyWhenRunning :
    State.reset.runState = .running ∧ halted.runState = .halted ∧ faulted.runState = .faulted := by decide

/-- A step that halts, one that goes on and one that faults, for the statements about a next state:
RunStateAfterAStep, PcMovesByOneOrTwo, FlagsInfluenceNothing, StepKeepsInv, NoneAddressingNeverResolves. -/
theorem witness_NextStates :
    (after (step State.reset)).map (·.runState) = some .halted ∧
    (after (step (at2 0x8000#16 0xA9#8 0x05#8 0 0 0 0))).map (·.runState) = some .running ∧
    (after (step (at2 0x8000#16 0xEA#8 0x05#8 0 0 0 0))).map (·.runState) = some .faulted ∧
    State.reset.faultCause ≠ 2#3 := by decide

theorem witness_FaultsOfAStep :
    after (step (at2 0xFFFE#16 0xA9#8 0x05#8 0 0 0 0)) =
      some (faultedWith (at2 0xFFFE#16 0xA9#8 0x05#8 0 0 0 0) 3#3 0x00#8) ∧
    after (step (at2 0xFFFE#16 0xFF#8 0x05#8 0 0 0 0)) =
      some (faultedWith (at2 0xFFFE#16 0xFF#8 0x05#8 0 0 0 0) 1#3 0xFF#8) := by decide

theorem witness_TopOfMemoryFaultsFirst :
    ({ State.reset with pc := 0xFFFF#16 } : State).runState = .running ∧
    ({ State.reset with pc := 0xFFFF#16 } : State).pc = 0xFFFF#16 := by decide

theorem witness_RegistersDoNotSteerControl :
    (let s := at2 0x8000#16 0xE8#8 0x00#8 0x01#8 0x02#8 0x03#8 0x00#8
     let s' := at2 0x8000#16 0xE8#8 0x00#8 0xFF#8 0xFF#8 0xFF#8 0xFF#8
     (after (stepWith decided s)).isSome = true ∧ s'.pc = s.pc ∧ s'.mem = s.mem ∧
     s'.runState = s.runState ∧ s'.faultCause = s.faultCause ∧ s'.faultInfo = s.faultInfo) := by decide

theorem witness_OnlyThePcPolicyMattersToAStep :
    decided.pcTop = ({ mem16Top := .wrap, zpPtr := .wrapPage0 } : Config).pcTop := by decide

theorem witness_StateInv : StateInv State.reset :=
  ⟨by decide, by decide, by decide, by decide, by decide, by decide, by decide⟩

/-- The invariant holds in a Faulted machine too. -/
theorem witness_StateInv_faulted : StateInv faulted :=
  ⟨by decide, by decide, by decide, by decide, by decide, by decide, by decide⟩

theorem witness_HostKeepsInv :
    host decided .reset State.reset = .done State.reset ∧
    host decided (.load (List.replicate 0x8001 0x11#8)) State.reset = .programTooLarge State.reset := by
  refine ⟨by decide, ?_⟩
  rcases load_cases (List.replicate 0x8001 0x11#8) State.reset with ⟨h, -⟩ | ⟨-, h⟩
  · rw [List.length_replicate] at h; omega
  · exact h

theorem witness_StatusStaysInThreeValues : State.reset.p ∈ [0x00#8, 0x02#8, 0x80#8] := by decide

/-- A memory with 0xE8 in each of the `n` cells from `lo` on. -/
def allInx : Nat → Nat → Memory
  | _, 0 => []
  | lo, n + 1 => (lo, 0xE8#8) :: allInx (lo + 1) n

theorem read_allInx {addr lo n : Nat} (hlo : lo ≤ addr) (hn : addr < lo + n) :
    (allInx lo n).read addr = 0xE8#8 := by
  induction n generalizing lo with
  | zero => omega
  | succ n ih =>
    by_cases h : addr = lo
    · simp [allInx, Memory.read, h]
    · simp [allInx, Memory.read, h, ih (by omega : lo + 1 ≤ addr) (by omega)]

/-- The machine that executes INX for ever under wrap. -/
def inxForEver : State := { State.reset with mem := allInx 0 0x10000 }

theorem witness_UnderWrapARunCanGoOnForEver :
    ({ pcTop := .wrap } : Config).pcTop = .wrap ∧ inxForEver.runState = .running ∧
    ∀ addr : Addr, memRead1 inxForEver addr = 0xE8#8 :=
  ⟨rfl, rfl, fun addr => read_allInx (Nat.zero_le _) (by have := addr.isLt; omega)⟩

/-- `inxForEver` is still going after 65536 steps. -/
theorem witness_LongRunsNeverEnd :
    (runSteps { pcTop := .wrap } 0x10000 inxForEver).runState = .running := by
  refine (runSteps_induct (Q := fun t => t.runState = .running ∧ t.mem = inxForEver.mem) ?_ 0x10000
    ⟨rfl, rfl⟩).1
  rintro u v ⟨hr, hm⟩ h
  have hop : opcodeAt u = 0xE8#8 := by
    rw [opcodeAt, memRead1_congr inxForEver hm]
    exact witness_UnderWrapARunCanGoOnForEver.2.2 _
  have hpc : pcInc { pcTop := .wrap } u.pc = .ok (u.pc + 1#16) := by
    rcases pcInc_cases { pcTop := .wrap } u.pc with ⟨-, -, hc⟩ | ⟨hc, -⟩
    · cases hc
    · exact hc
  rw [(StepCase.inx hpc hop).stepWith_eq hr] at h
  cases h
  exact ⟨by simp [afterInx, hr], by simp [afterInx, hm]⟩

theorem witness_EndStateOfARun : StateInv State.reset ∧ EndsWell decided State.reset (afterBrk State.reset) :=
  ⟨witness_StateInv, by decide, by decide, 1, by decide⟩

theorem witness_RunOfTheHost :
    halted.runState = .halted ∧ faulted.runState = .faulted ∧ State.reset.runState = .running ∧
    (List.replicate 0x8000 0x11#8).length ≤ 0x8000 ∧ 0x8000 < (List.replicate 0x8001 0x11#8).length :=
  ⟨by decide, by decide, by decide, by rw [List.length_replicate], by rw [List.length_replicate]; decide⟩

theorem witness_UpdateZnWritesTwoBits : (0 : Nat) ≠ 1 ∧ (0 : Nat) ≠ 7 := by decide

theorem witness_WritesAreReadBack :
    (at2 0x8000#16 0xA9#8 0x05#8 0 0 0 0).mem.wf = true ∧ (0xFFFE#16 : Addr) ≠ 0xFFFF#16 := by decide

theorem witness_WordReadIsLittleEndian : (0xFFFE#16 : Addr) ≠ 0xFFFF#16 := by decide

theorem witness_WordAccessAtTheTop :
    decided.mem16Top = .fault ∧ ({ mem16Top := .wrap } : Config).mem16Top = .wrap ∧
    State.reset.mem.wf = true ∧ (0x0001#16 : Addr) ≠ 0xFFFF#16 ∧ (0x0001#16 : Addr) ≠ 0x0000#16 := by decide

theorem witness_EqualMemoriesAreEqualData :
    (at2 0x8000#16 0xA9#8 0x05#8 0 0 0 0).mem.wf = true ∧
    (at2 0x8000#16 0xA9#8 0x05#8 1 2 3 4).mem.wf = true ∧
    SameMemory (at2 0x8000#16 0xA9#8 0x05#8 0 0 0 0) (at2 0x8000#16 0xA9#8 0x05#8 1 2 3 4) :=
  ⟨by decide, by decide, fun _ => rfl⟩

/-- Of each clause of AbsoluteModes and MemoryPortAnswers. -/
theorem witness_AbsoluteModes :
    (0xFFFE#16 : Addr) ≠ 0xFFFF#16 ∧ decided.mem16Top = .fault ∧
    ({ mem16Top := .wrap } : Config).mem16Top = .wrap ∧ State.reset.mem.wf = true := by decide

theorem witness_ResolverPortAnswers :
    9 < (10#4).toNat ∧ modeCode .noneAddressing = 9#4 ∧ modeCode .absoluteY = 6#4 ∧
    modeCode .immediate = 0#4 := by decide

theorem witness_LoadCopiesThenWritesTheVector :
    State.reset.mem.wf = true ∧ (List.replicate 0x8000 0x11#8).length ≤ 0x8000 ∧
    0x8000 < (List.replicate 0x8001 0x11#8).length := by
  exact ⟨by decide, by rw [List.length_replicate], by rw [List.length_replicate]; decide⟩

theorem witness_LoadTwiceIsLoadOnce :
    State.reset.mem.wf = true ∧ load [0xE8#8] State.reset = .done (loadBytes [0xE8#8] State.reset) ∧
    load [0xE8#8] (loadBytes [0xE8#8] State.reset) = .done (loadBytes [0xE8#8] State.reset) := by decide

theorem witness_BootState : load [0xE8#8] powerOn = .done (loadBytes [0xE8#8] powerOn) := by decide

theorem witness_HostWritesAreReadBack : State.reset.mem.wf = true := by decide

end Sys2Proof.Tests
end

section
/-! What 16-bit accesses below 0xFFFF do: read-back and frame (spec 20_memory.md R28 to R32). -/

namespace Sys2Proof.Machine

/-! ### A word written, as the two byte writes it is made of -/

theorem Addr.ne_succ (addr : Addr) : addr ≠ addr + 1#16 := by bv_omega

/-- The two cells a word write touches never coincide, not even at 0xFFFF, so the second byte write
does not disturb the first. -/
theorem memRead1_setWordAt {s : State} (hs : s.mem.wf = true) (addr w other : Addr) :
    memRead1 (setWordAt s addr w) other =
      if other = addr then lowByte w
      else if other = addr + 1#16 then highByte w else memRead1 s other := by
  rw [setWordAt, memRead1_memWrite1 (memWrite1_wf hs _ _), memRead1_memWrite1 hs]
  by_cases h : other = addr
  · simp [h, Addr.ne_succ addr]
  · simp [h]

theorem wordAt_setWordAt {s : State} (hs : s.mem.wf = true) (addr w : Addr) :
    wordAt (setWordAt s addr w) addr = w := by
  rw [wordAt, memRead1_setWordAt hs, memRead1_setWordAt hs, if_neg (Addr.ne_succ addr).symm,
    if_pos rfl, if_pos rfl, cat16_high_low]

/-! ### The 16-bit accesses that cannot fault (R29, R30) -/

theorem memRead2_of_ne_top {addr : Addr} (h : addr ≠ 0xFFFF#16) (c : Config) (s : State) :
    memRead2 c s addr = .ok (wordAt s addr) := by
  rcases memRead2_cases c s addr with ⟨-, htop, -⟩ | ⟨hr, -⟩
  · exact absurd htop h
  · exact hr

theorem memWrite2_of_ne_top {addr : Addr} (h : addr ≠ 0xFFFF#16) (c : Config) (s : State) (w : Addr) :
    memWrite2 c s addr w = .ok (setWordAt s addr w) :=
  if_neg fun htop => h htop.1

end Sys2Proof.Machine

namespace Sys2Proof.Proofs

open Sys2Proof.Machine

/-- Settles O42: a word write is two byte writes to different cells, so each cell reads back what was
written to it. -/
theorem writesAreReadBack : Obligations.WritesAreReadBack := by
  intro c s addr v w hs
  refine ⟨fun other => memRead1_memWrite1 hs addr other v, rfl, fun haddr => ?_⟩
  refine ⟨setWordAt s addr w, memWrite2_of_ne_top haddr c s w, ?_, rfl, fun other => ?_⟩
  · rw [memRead2_of_ne_top haddr, wordAt_setWordAt hs]
  · rw [memRead1_setWordAt hs]
    simp only [apply_ite BitVec.toNat, lowByte_toNat, highByte_toNat]

/-- Settles O43: below 0xFFFF the read answers the word at the address. -/
theorem wordReadIsLittleEndian : Obligations.WordReadIsLittleEndian := by
  intro c s addr haddr
  exact ⟨wordAt s addr, memRead2_of_ne_top haddr c s, wordAt_toNat s addr⟩

end Sys2Proof.Proofs
end

section
/-! The zero-page modes of the resolver (spec 40_address_mode_resolver.md R57 to R60). -/

namespace Sys2Proof.Machine

/-- An indexed zero-page address: the sum wraps in 8 bits before it is extended, so it stays in
page 0 (R59, R60). -/
theorem zext16_add8_toNat (v w : Byte) : (zext16 (add8 v w)).toNat = (v.toNat + w.toNat) % 256 := by
  rw [zext16_toNat, add8_toNat]

end Sys2Proof.Machine

namespace Sys2Proof.Proofs

open Sys2Proof.Machine

/-- Settles O46: each of the four modes answers an address without a 16-bit read, so none can fault, and
the indexed ones add in 8 bits. -/
theorem zeroPageModes : Obligations.ZeroPageModes := by
  intro c s p
  refine ⟨rfl, ?zeroPage, ?zeroPageX, ?zeroPageY⟩
  case zeroPage => exact ⟨_, rfl, zext16_toNat (memRead1 s p)⟩
  case zeroPageX => exact ⟨_, rfl, zext16_add8_toNat (memRead1 s p) s.x⟩
  case zeroPageY => exact ⟨_, rfl, zext16_add8_toNat (memRead1 s p) s.y⟩

end Sys2Proof.Proofs
end

section
/-! What `update_zn` does to the state and to the two flags (spec 46_status_flag_update.md R87). -/

namespace Sys2Proof.Machine

/-! ### The flags after `update_zn`, and its frame -/

@[simp] theorem zFlag_updateZn (v : Byte) (s : State) : zFlag (updateZn v s) = isZero8 v :=
  znByte_zero v s.p

@[simp] theorem nFlag_updateZn (v : Byte) (s : State) : nFlag (updateZn v s) = msb8 v :=
  znByte_negative v s.p

/-- Only the status byte changes, and it is the one expression of R87. -/
theorem updateZn_eq (v : Byte) (s : State) : updateZn v s = { s with p := Spec.zn v s.p } :=
  congrArg s.setStatus (znByte_eq v s.p)

end Sys2Proof.Machine

namespace Sys2Proof.Proofs

open Sys2Proof.Machine

/-- Settles O39: the state clause is the one expression of R87; the bit clauses are what the status byte
holds at the Zero bit, at the Negative bit and at each other bit. -/
theorem updateZnWritesTwoBits : Obligations.UpdateZnWritesTwoBits := by
  intro v s
  refine ⟨updateZn_eq v s, ?zero, ?negative, ?others⟩
  case zero => rw [zFlag_updateZn, Bool.eq_iff_iff, isZero8_iff, decide_eq_true_iff]
  case negative => exact nFlag_updateZn v s
  case others => exact fun k h1 h7 => znByte_other v s.p h1 h7

end Sys2Proof.Proofs
end

section
/-! The arithmetic on numbers (spec 47_alu_8bit.md R93 to R96). -/

namespace Sys2Proof.Proofs

open Sys2Proof.Machine

/-- Settles O41: each clause is the arithmetic law of its function, with the carry out of the top bit
lost in the remainder. -/
theorem aluArithmetic : Obligations.AluArithmetic := by
  intro v w b d
  exact ⟨add8_toNat v w, add16_toNat b d, zext16_toNat v, inc8_toNat v, pass8_eq v⟩

end Sys2Proof.Proofs
end

section
/-! What reset leaves alone (spec 70_reset_and_hazards.md R137). -/

namespace Sys2Proof.Proofs

open Sys2Proof.Machine

/-- Settles O53: reset always answers, it does not write Y, and the machine it answers holds the same memory,
so every address reads as before. -/
theorem resetLeavesYAndMemory : Obligations.ResetLeavesYAndMemory := by
  intro c s
  exact ⟨hostReset s, rfl, hostReset_y s, memRead1_congr s (hostReset_mem s)⟩

end Sys2Proof.Proofs
end

section
/-! The decoder and the encoder (spec 30_encoding.md R44 to R50), and the codes of the ports (R56, R106). -/

namespace Sys2Proof

open Sys2Proof.Machine Sys2Proof.Spec

/-- A byte sequence that decodes is the encoding of what it decodes to: each row of the opcode table has
its own first byte, and only LDA takes a second one. -/
theorem eq_encode_append_of_decode {bytes rest : List Byte} {i : Instr}
    (h : decode bytes = .ok (i, rest)) : bytes = encode i ++ rest := by
  match bytes with
  | [] => cases h
  | op :: more =>
    rcases decodeOp_cases op with ⟨rfl, hd⟩ | ⟨rfl, hd⟩ | ⟨rfl, hd⟩ | ⟨rfl, hd⟩ | ⟨-, -, -, -, hd⟩
    case inr.inl =>
      match more with
      | [] => simp [decode, hd, assemble] at h
      | imm :: more =>
        obtain ⟨rfl, rfl⟩ : .lda imm = i ∧ more = rest := by simpa [decode, hd, assemble] using h
        rfl
    case inr.inr.inr.inr => simp [decode, hd] at h
    all_goals
      simp only [decode, hd, assemble, Except.ok.injEq, Prod.mk.injEq] at h
      obtain ⟨rfl, rfl⟩ := h
      rfl

/-- The bytes outside the opcode table are the unimplemented ones (R48). -/
theorem decodeOp_eq_none_iff (op : Byte) : decodeOp op = none ↔ op ∉ opcodes := by
  rcases decodeOp_cases op with ⟨rfl, hd⟩ | ⟨rfl, hd⟩ | ⟨rfl, hd⟩ | ⟨rfl, hd⟩ | ⟨h0, h1, h2, h3, hd⟩
  case inr.inr.inr.inr => simp [hd, opcodes, h0, h1, h2, h3]
  all_goals simp [hd, opcodes]

theorem modeOfCode_modeCode (m : Mode) : modeOfCode (modeCode m) = some m := by
  cases m <;> rfl

theorem modeOfCode_eq_none {code : BitVec 4} (h : 9 < code.toNat) : modeOfCode code = none := by
  have hno : isModeCode code = false := decide_eq_false (by omega)
  simp [modeOfCode, hno]

end Sys2Proof

namespace Sys2Proof.Proofs

open Sys2Proof.Machine Sys2Proof.Spec

/-- Settles O1, by the round trip of each instruction. -/
theorem decodeOfEncode : Obligations.DecodeOfEncode := by
  intro i rest
  cases i with
  | brk => exact Laws.RoundTrip.brk rest
  | lda imm => exact Laws.RoundTrip.lda imm rest
  | tax => exact Laws.RoundTrip.tax rest
  | inx => exact Laws.RoundTrip.inx rest

/-- Settles O2. -/
theorem encodeOfDecode : Obligations.EncodeOfDecode :=
  fun _ _ _ h => eq_encode_append_of_decode h

/-- Settles O4: the bytes are the encoding of one of the four instructions, and its first byte is the one
the descriptor is taken from. -/
theorem lengthFromFirstByte : Obligations.LengthFromFirstByte := by
  intro op more rest i h
  have hbytes := eq_encode_append_of_decode h
  cases i <;> obtain ⟨rfl, rfl⟩ := List.cons.inj hbytes <;> exact ⟨_, rfl, rfl, rfl, rfl⟩

/-- Settles O3: each of the four words is the encoding of its instruction. -/
theorem writtenWordsDecode : Obligations.WrittenWordsDecode :=
  ⟨decodeOfEncode .brk [], decodeOfEncode (.lda 0x05#8) [], decodeOfEncode .tax [],
    decodeOfEncode .inx []⟩

/-- Settles O6: the codes and the four answers of the decoder's port are read off the tables; the codes
from 10 on are no tags, and a byte outside the opcode table has no descriptor. -/
theorem portCodes : Obligations.PortCodes := by
  refine ⟨rfl, rfl, rfl, rfl, rfl, rfl, rfl, rfl, rfl, rfl, modeOfCode_modeCode,
    fun code h => modeOfCode_eq_none h, rfl, rfl, rfl, rfl, fun op hop => ?_⟩
  simp [decoderPort, (decodeOp_eq_none_iff op).mpr hop]

end Sys2Proof.Proofs
end

section
/-! The four instructions in closed form: where they complete, what they leave, where they trap
(spec 42_load_lda.md to 45_break_brk.md R83 to R86, 60_exceptions.md R119, R124). -/

namespace Sys2Proof.Machine

open Sys2Proof.Spec

/-! ### The advance of the program counter under each policy (R17) -/

theorem pcInc_of_wrap {c : Config} (h : c.pcTop = .wrap) (pc : Addr) : pcInc c pc = .ok (pc + 1#16) := by
  rcases pcInc_cases c pc with ⟨-, -, hf⟩ | ⟨hok, -⟩
  · rw [h] at hf; cases hf
  · exact hok

theorem pcInc_decided_top : pcInc decided 0xFFFF#16 = .error .pcOverflow := rfl

/-- Under the decided policy an advance never wraps. -/
theorem ne_top_of_pcInc_decided {pc q : Addr} (h : pcInc decided pc = .ok q) : pc ≠ 0xFFFF#16 := by
  rintro rfl
  cases h

theorem eq_top_of_pcInc_error {c : Config} {pc : Addr} {f : Fault} (h : pcInc c pc = .error f) :
    pc = 0xFFFF#16 := by
  rcases pcInc_cases c pc with ⟨-, htop, -⟩ | ⟨hok, -⟩
  · exact htop
  · rw [hok] at h; cases h

/-- Two advances together, modulo 65536. -/
theorem succ_succ (pc : Addr) : pc + 1#16 + 1#16 = pc + 2#16 := BitVec.add_assoc pc 1#16 1#16

theorem succ_toNat {pc : Addr} (h : pc ≠ 0xFFFF#16) : (pc + 1#16).toNat = pc.toNat + 1 := by
  have hne : pc.toNat ≠ 0xFFFF := fun he => h (BitVec.eq_of_toNat_eq he)
  have hlt := pc.isLt
  rw [BitVec.toNat_add]
  exact Nat.mod_eq_of_lt (by simp; omega)

/-! ### The states that steps lead to, as the statements write them -/

theorem enterFault_eq (f : Fault) (s : State) :
    enterFault f s = faultedWith s (faultCode f) (faultPayload f) := rfl

theorem inc8_eq_plusOne (v : Byte) : inc8 v = plusOne v := by
  apply BitVec.eq_of_toNat_eq
  rw [inc8_toNat, plusOne, BitVec.toNat_ofNat, Nat.mod_mod]

theorem afterBrk_eq (s : State) : afterBrk s = { s with runState := .halted, pc := s.pc + 1#16 } := rfl

theorem afterTax_eq (s : State) :
    afterTax s = { s with x := s.a, p := zn s.a s.p, pc := s.pc + 1#16 } :=
  updateZn_eq s.a _

theorem afterInx_eq (s : State) :
    afterInx s = { s with x := plusOne s.x, p := zn (plusOne s.x) s.p, pc := s.pc + 1#16 } := by
  rw [afterInx, inc8_eq_plusOne, updateZn_eq]
  rfl

theorem afterLda_eq (imm : Byte) (s : State) :
    afterLda imm s = { s with a := imm, p := zn imm s.p, pc := s.pc + 2#16 } := by
  rw [afterLda, succ_succ, updateZn_eq]
  rfl

/-! ### The four instructions where every advance succeeds, and where one does not -/

theorem atomically_of_error {c : Config} {s : State} {f : Fault} (h : pcInc c s.pc = .error f)
    (body : State → Except Fault State) : atomically c s body = .next (enterFault f s) := by
  simp [atomically, h]

theorem atomically_of_ok {c : Config} {s t : State} {pc : Addr} {body : State → Except Fault State}
    (h : pcInc c s.pc = .ok pc) (hb : body (s.setPc pc) = .ok t) : atomically c s body = .next t := by
  simp [atomically, h, hb]

/-- What an instruction does once its opcode byte is fetched. -/
def instrBody (c : Config) : Instr → State → Except Fault State
  | .brk => brkBody
  | .lda imm => ldaBody c imm
  | .tax => taxBody
  | .inx => inxBody

/-- Every instruction runs its body in the one frame (R73, R76). -/
theorem execWith_eq_atomically (c : Config) (i : Instr) (s : State) :
    execWith c i s = atomically c s (instrBody c i) := by
  cases i <;> rfl

/-- A fault of the fetch's advance is taken whatever the instruction. -/
theorem execWith_of_fetch_error {c : Config} {s : State} {f : Fault} (h : pcInc c s.pc = .error f)
    (i : Instr) : execWith c i s = .next (enterFault f s) := by
  rw [execWith_eq_atomically, atomically_of_error h]

theorem execWith_brk_of_ok {c : Config} {s : State} (h : pcInc c s.pc = .ok (s.pc + 1#16)) :
    execWith c .brk s = .next (afterBrk s) := atomically_of_ok (body := brkBody) h rfl

theorem execWith_tax_of_ok {c : Config} {s : State} (h : pcInc c s.pc = .ok (s.pc + 1#16)) :
    execWith c .tax s = .next (afterTax s) := atomically_of_ok (body := taxBody) h rfl

theorem execWith_inx_of_ok {c : Config} {s : State} (h : pcInc c s.pc = .ok (s.pc + 1#16)) :
    execWith c .inx s = .next (afterInx s) := atomically_of_ok (body := inxBody) h rfl

theorem execWith_lda_of_ok {c : Config} {s : State} (h : pcInc c s.pc = .ok (s.pc + 1#16))
    (h2 : pcInc c (s.pc + 1#16) = .ok (s.pc + 1#16 + 1#16)) (imm : Byte) :
    execWith c (.lda imm) s = .next (afterLda imm s) :=
  atomically_of_ok (body := ldaBody c imm) h (by rw [ldaBody, setPc_pc, h2]; rfl)

/-- A fault of the advance over LDA's operand is taken with the state of the start of the step. -/
theorem execWith_lda_of_operand_error {c : Config} {s : State} {q : Addr} {f : Fault}
    (h : pcInc c s.pc = .ok q) (h2 : pcInc c q = .error f) (imm : Byte) :
    execWith c (.lda imm) s = .next (enterFault f s) := by
  simp [execWith, execLdaWith, atomically, h, ldaBody, h2]

/-! ### The step, from the bytes at the program counter (R73, R74) -/

theorem step_of_decode {s : State} {i : Instr} {rest : List Byte} (hr : s.runState = .running)
    (hd : decode (fetchBytes s) = .ok (i, rest)) : step s = exec i s := by
  simp [step, stepBy, hr, hd]

/-- With the bytes of an instruction at the program counter, the fetch reads them and perhaps one more. -/
theorem decode_fetchBytes_of_bytesAt {s : State} {i : Instr}
    (h : ∀ (k : Nat) (hk : k < (encode i).length),
      memRead1 s (s.pc + BitVec.ofNat 16 k) = (encode i)[k]) :
    ∃ rest, decode (fetchBytes s) = .ok (i, rest) := by
  have hlen : 0 < (encode i).length := by cases i <;> exact Nat.succ_pos _
  have h0 : opcodeAt s = (encode i)[0] := by simpa [opcodeAt] using h 0 hlen
  cases i with
  | lda imm =>
    have h1 : memRead1 s (s.pc + 1#16) = imm := h 1 (Nat.lt_succ_self 1)
    exact ⟨[], by rw [fetchBytes, h0, h1]; exact Laws.RoundTrip.lda imm []⟩
  | brk => exact ⟨[memRead1 s (s.pc + 1#16)], by rw [fetchBytes, h0]; exact Laws.RoundTrip.brk _⟩
  | tax => exact ⟨[memRead1 s (s.pc + 1#16)], by rw [fetchBytes, h0]; exact Laws.RoundTrip.tax _⟩
  | inx => exact ⟨[memRead1 s (s.pc + 1#16)], by rw [fetchBytes, h0]; exact Laws.RoundTrip.inx _⟩

end Sys2Proof.Machine

namespace Sys2Proof.Proofs

open Sys2Proof.Machine Sys2Proof.Spec

/-- Settles O7: below 0xFFFE both advances succeed; where one faults the fault keeps A and P; and the
address Immediate resolves to is the one the fetch reads the operand from. -/
theorem ldaLoadsItsOperand : Obligations.LdaLoadsItsOperand := by
  intro imm s
  refine ⟨rfl, ?completes, ?faults, ?step⟩
  case completes =>
    intro hpc hpc'
    have hnext : s.pc + 1#16 ≠ 0xFFFF#16 := by bv_omega
    rw [exec_eq_execWith, execWith_lda_of_ok (pcInc_of_ne hpc) (pcInc_of_ne hnext), afterLda_eq]
  case faults =>
    intro f h
    refine ⟨?_, rfl, rfl⟩
    rw [exec_eq_execWith]
    rcases h with h | ⟨q, h, h2⟩
    · exact execWith_of_fetch_error h _
    · exact execWith_lda_of_operand_error h h2 imm
  case step =>
    intro ea hr hop hea
    obtain rfl : s.pc + 1#16 = ea := Except.ok.inj hea
    refine step_of_decode (rest := []) hr ?_
    rw [fetchBytes, opcodeAt, hop]
    exact Laws.RoundTrip.lda _ []

/-- Settles O8. -/
theorem taxCopiesTheAccumulator : Obligations.TaxCopiesTheAccumulator := by
  intro s
  refine ⟨rfl, fun hpc => ?_, fun f h => ?_⟩ <;> rw [exec_eq_execWith]
  · rw [execWith_tax_of_ok (pcInc_of_ne hpc), afterTax_eq]
  · exact execWith_of_fetch_error h _

/-- Settles O9. -/
theorem inxAddsOneToX : Obligations.InxAddsOneToX := by
  intro s
  refine ⟨rfl, fun hpc => ?_, fun f h => ?_⟩ <;> rw [exec_eq_execWith]
  · rw [execWith_inx_of_ok (pcInc_of_ne hpc), afterInx_eq]
  · exact execWith_of_fetch_error h _

/-- Settles O10. -/
theorem brkHalts : Obligations.BrkHalts := by
  intro s
  refine ⟨rfl, fun hpc => ?_, fun f h => ⟨?_, enterFault_runState s f⟩⟩ <;> rw [exec_eq_execWith]
  · rw [execWith_brk_of_ok (pcInc_of_ne hpc), afterBrk_eq]
  · exact execWith_of_fetch_error h _

/-- Settles O11: at 0xFFFF the fetch's advance faults, at 0xFFFE the advance over LDA's operand. -/
theorem instructionsTrapAtTheTop : Obligations.InstructionsTrapAtTheTop := by
  intro imm s
  refine ⟨fun hpc i _ => ?fetch, fun hpc => ?operand⟩ <;> rw [exec_eq_execWith]
  case fetch =>
    have h : pcInc decided s.pc = .error .pcOverflow := hpc ▸ pcInc_decided_top
    exact execWith_of_fetch_error h i
  case operand =>
    have h : pcInc decided s.pc = .ok 0xFFFF#16 := by rw [hpc]; rfl
    exact execWith_lda_of_operand_error h pcInc_decided_top imm

/-- Settles O12: under wrap no advance faults. -/
theorem underWrapEveryInstructionCompletes : Obligations.UnderWrapEveryInstructionCompletes := by
  intro c s imm hc
  have h := pcInc_of_wrap hc
  refine ⟨?lda, ?tax, ?inx, ?brk⟩
  case lda => rw [execWith_lda_of_ok (h _) (h _), afterLda_eq]
  case tax => rw [execWith_tax_of_ok (h _), afterTax_eq]
  case inx => rw [execWith_inx_of_ok (h _), afterInx_eq]
  case brk => rw [execWith_brk_of_ok (h _), afterBrk_eq]

/-- Settles O16. -/
theorem stepRunsTheInstructionAtPc : Obligations.StepRunsTheInstructionAtPc := by
  intro s i hr _ hbytes
  obtain ⟨rest, hd⟩ := decode_fetchBytes_of_bytesAt hbytes
  exact step_of_decode hr hd

/-- Settles O19. -/
theorem machineHasDecidedParameters : Obligations.MachineHasDecidedParameters :=
  ⟨rfl, fun i s => ⟨exec_eq_execWith i s, step_eq_stepWith s⟩⟩

/-- Settles O24. -/
theorem faultEntry : Obligations.FaultEntry := by
  intro s op
  exact ⟨enterFault_eq _ s, enterFault_eq _ s, enterFault_eq _ s, enterFault_eq _ s⟩

end Sys2Proof.Proofs
end

section
/-! What a step answers, what it changes and what it leaves (spec 41_fetch_decode_execute.md R71 to R81,
60_exceptions.md R116 to R124). -/

namespace Sys2Proof.Machine

open Sys2Proof.Spec

/-! ### Where a step exists (R71) -/

theorem stepWith_of_halted {s : State} (h : s.runState = .halted) (c : Config) :
    stepWith c s = .refused .runWhileHalted := by simp [stepWith, stepBy, h]

theorem stepWith_of_faulted {s : State} (h : s.runState = .faulted) (c : Config) :
    stepWith c s = .refused .runWhileFaulted := by simp [stepWith, stepBy, h]

theorem step_of_case {s t : State} (h : StepCase decided s t) (hr : s.runState = .running) :
    step s = .next t :=
  step_eq_stepWith s ▸ h.stepWith_eq hr

/-! ### The step as the loop contract (R72) -/

/-- Each case of a step is what the pseudocode answers there. -/
theorem StepCase.eq_loopIteration {c : Config} {s t : State} (h : StepCase c s t) :
    t = loopIteration c s := by
  have hfetch : memRead1 s s.pc = opcodeAt s := rfl
  cases h with
  | overflow h => simp [loopIteration, h]
  | unimplemented h hop =>
    obtain ⟨h0, h1, h2, h3⟩ : opcodeAt s ≠ 0x00#8 ∧ opcodeAt s ≠ 0xA9#8 ∧ opcodeAt s ≠ 0xAA#8 ∧
        opcodeAt s ≠ 0xE8#8 := by simpa [opcodes] using (decodeOp_eq_none_iff _).mp hop
    simp [loopIteration, hfetch, h, h0, h1, h2, h3]
  | brk h hop => simp [loopIteration, hfetch, h, hop, afterBrk_eq]
  | tax h hop => simp [loopIteration, hfetch, h, hop, afterTax_eq]
  | inx h hop => simp [loopIteration, hfetch, h, hop, afterInx_eq]
  | operandOverflow h hop h2 => simp [loopIteration, hfetch, h, hop, resolve, h2]
  | lda h hop h2 =>
    have hoperand : memRead1 { s with pc := s.pc + 1#16 } (s.pc + 1#16) = memRead1 s (s.pc + 1#16) := rfl
    simp [loopIteration, hfetch, h, hop, resolve, h2, hoperand, afterLda_eq, succ_succ]

/-! ### Which parameters a step reads (R31, R69) -/

theorem pcInc_congr {c c' : Config} (h : c.pcTop = c'.pcTop) (pc : Addr) : pcInc c pc = pcInc c' pc := by
  simp [pcInc, h]

/-- A case of a step under one configuration is one under every other with the same `PC_TOP_POLICY`. -/
theorem StepCase.of_pcTop {c c' : Config} (hc : c.pcTop = c'.pcTop) {s t : State} (h : StepCase c s t) :
    StepCase c' s t := by
  have hp := pcInc_congr hc
  cases h with
  | overflow h => exact .overflow (hp _ ▸ h)
  | unimplemented h hop => exact .unimplemented (hp _ ▸ h) hop
  | brk h hop => exact .brk (hp _ ▸ h) hop
  | tax h hop => exact .tax (hp _ ▸ h) hop
  | inx h hop => exact .inx (hp _ ▸ h) hop
  | operandOverflow h hop h2 => exact .operandOverflow (hp _ ▸ h) hop (hp _ ▸ h2)
  | lda h hop h2 => exact .lda (hp _ ▸ h) hop (hp _ ▸ h2)

/-! ### What a step changes, in three forms: a fault, a halt, an instruction that goes on -/

/-- The two faults a step can take, and where (R116, R123). -/
inductive FaultCase (c : Config) (s : State) : Fault → Prop where
  | fetch (h : pcInc c s.pc = .error .pcOverflow) : FaultCase c s .pcOverflow
  | operand (h : pcInc c s.pc = .ok (s.pc + 1#16)) (hop : opcodeAt s = 0xA9#8)
      (h2 : pcInc c (s.pc + 1#16) = .error .pcOverflow) : FaultCase c s .pcOverflow
  | opcode (h : pcInc c s.pc = .ok (s.pc + 1#16)) (hop : decodeOp (opcodeAt s) = none) :
      FaultCase c s (.unimplementedOpcode (opcodeAt s))

/-- What TAX, INX and LDA leave alone where they complete, and where they leave the program counter. -/
structure GoesOn (s t : State) : Prop where
  y : t.y = s.y
  mem : t.mem = s.mem
  latch : SameRunAndLatch s t
  status : ∃ v, t.p = znByte v s.p
  opcode : opcodeAt s ∈ [0xA9#8, 0xAA#8, 0xE8#8]
  pc : t.pc = if opcodeAt s = 0xA9#8 then s.pc + 1#16 + 1#16 else s.pc + 1#16

theorem goesOn_afterTax {s : State} (hop : opcodeAt s = 0xAA#8) : GoesOn s (afterTax s) where
  y := rfl
  mem := rfl
  latch := ⟨rfl, rfl, rfl⟩
  status := ⟨_, rfl⟩
  opcode := by simp [hop]
  pc := by simp [hop, afterTax]

theorem goesOn_afterInx {s : State} (hop : opcodeAt s = 0xE8#8) : GoesOn s (afterInx s) where
  y := rfl
  mem := rfl
  latch := ⟨rfl, rfl, rfl⟩
  status := ⟨_, rfl⟩
  opcode := by simp [hop]
  pc := by simp [hop, afterInx]

theorem goesOn_afterLda {s : State} (hop : opcodeAt s = 0xA9#8) (imm : Byte) :
    GoesOn s (afterLda imm s) where
  y := rfl
  mem := rfl
  latch := ⟨rfl, rfl, rfl⟩
  status := ⟨_, rfl⟩
  opcode := by simp [hop]
  pc := by simp [hop, afterLda]

/-- The three forms of a step. -/
theorem StepCase.fault_or_halt_or_goesOn {c : Config} {s t : State} (h : StepCase c s t) :
    (∃ f, FaultCase c s f ∧ t = enterFault f s) ∨
    (pcInc c s.pc = .ok (s.pc + 1#16) ∧ opcodeAt s = 0x00#8 ∧ t = afterBrk s) ∨
    (pcInc c s.pc = .ok (s.pc + 1#16) ∧
      (opcodeAt s = 0xA9#8 → pcInc c (s.pc + 1#16) = .ok (s.pc + 1#16 + 1#16)) ∧ GoesOn s t) := by
  cases h with
  | overflow h => exact .inl ⟨_, .fetch h, rfl⟩
  | unimplemented h hop => exact .inl ⟨_, .opcode h hop, rfl⟩
  | operandOverflow h hop h2 => exact .inl ⟨_, .operand h hop h2, rfl⟩
  | brk h hop => exact .inr (.inl ⟨h, hop, rfl⟩)
  | tax h hop => exact .inr (.inr ⟨h, by simp [hop], goesOn_afterTax hop⟩)
  | inx h hop => exact .inr (.inr ⟨h, by simp [hop], goesOn_afterInx hop⟩)
  | lda h hop h2 => exact .inr (.inr ⟨h, fun _ => h2, goesOn_afterLda hop _⟩)

/-- A running machine that goes on is running still, with the latch as it was. -/
theorem StepCase.goesOn_of_running {c : Config} {s t : State} (h : StepCase c s t)
    (hr : t.runState = .running) : GoesOn s t := by
  rcases h.fault_or_halt_or_goesOn with ⟨f, -, rfl⟩ | ⟨-, -, rfl⟩ | ⟨-, -, hg⟩
  · cases hr
  · cases hr
  · exact hg

/-! ### What a step reads: the program counter, memory and the run state -/

/-- Two states that agree on all that steers a step (R81, R90). -/
structure SameControl (s s' : State) : Prop where
  pc : s'.pc = s.pc
  mem : s'.mem = s.mem
  latch : SameRunAndLatch s s'

/-- States that agree on what steers a step differ in A, X, Y and P at most. -/
theorem SameControl.eq_registers {s s' : State} (h : SameControl s s') :
    ∃ a x y p, s' = { s with a := a, x := x, y := y, p := p } := by
  obtain ⟨hpc, hmem, hr, hc, hi⟩ := h
  exact ⟨s'.a, s'.x, s'.y, s'.p, State.ext_fields rfl rfl rfl rfl hpc hmem hr hc hi⟩

/-- States that agree on what steers a step take the same case of it, to states that agree again. -/
theorem StepCase.of_sameControl {c : Config} {s s' t : State} (h : StepCase c s t)
    (hs : SameControl s s') : ∃ t', StepCase c s' t' ∧ SameControl t t' := by
  obtain ⟨a, x, y, p, rfl⟩ := hs.eq_registers
  cases h with
  | overflow h => exact ⟨_, .overflow h, rfl, rfl, rfl, rfl, rfl⟩
  | unimplemented h hop => exact ⟨_, .unimplemented h hop, rfl, rfl, rfl, rfl, rfl⟩
  | operandOverflow h hop h2 => exact ⟨_, .operandOverflow h hop h2, rfl, rfl, rfl, rfl, rfl⟩
  | brk h hop => exact ⟨_, .brk h hop, rfl, rfl, rfl, rfl, rfl⟩
  | tax h hop => exact ⟨_, .tax h hop, rfl, rfl, rfl, rfl, rfl⟩
  | inx h hop => exact ⟨_, .inx h hop, rfl, rfl, rfl, rfl, rfl⟩
  | lda h hop h2 => exact ⟨_, .lda h hop h2, rfl, rfl, rfl, rfl, rfl⟩

/-- The Zero and Negative bits of `update_zn` do not depend on the old status byte (R90). -/
theorem znByte_zn_bits (v p q : Byte) : znByte v q &&& 0x82#8 = znByte v p &&& 0x82#8 := by
  have hkeep : ∀ r : Byte, r &&& 0x7D#8 &&& 0x82#8 = 0#8 := fun r => by rw [BitVec.and_assoc]; simp
  simp only [znByte, BitVec.and_or_distrib_right, hkeep]

/-! ### A word placed at the program counter (R112) -/

theorem decode_of_decodeTableWord {nbits w : Nat} {i : Instr} (h : decodeTableWord nbits w = some i) :
    ∃ rest, decode (tableWordBytes nbits w) = .ok (i, rest) := by
  unfold decodeTableWord at h
  split at h
  · next j rest hd => cases h; exact ⟨rest, hd⟩
  · cases h

/-- The placing is two byte writes. -/
theorem withFetchWord_eq (s : State) (nbits w : Nat) :
    s.withFetchWord nbits w =
      memWrite1 (memWrite1 s s.pc (BitVec.ofNat 8 (w % 2 ^ nbits))) (s.pc + 1#16)
        (BitVec.ofNat 8 (w % 2 ^ nbits / 256)) := rfl

/-- The fetch reads the two bytes placed. -/
theorem fetchBytes_withFetchWord {s : State} (hs : s.mem.wf = true) (nbits w : Nat) :
    fetchBytes (s.withFetchWord nbits w) = tableWordBytes nbits w := by
  have hs' := memWrite1_wf hs s.pc (BitVec.ofNat 8 (w % 2 ^ nbits))
  rw [withFetchWord_eq, fetchBytes, opcodeAt, memWrite1_pc, memWrite1_pc, memRead1_memWrite1 hs',
    if_neg (Addr.ne_succ s.pc), memRead1_memWrite1 hs, if_pos rfl, memRead1_memWrite1 hs', if_pos rfl,
    tableWordBytes]

end Sys2Proof.Machine

namespace Sys2Proof.Proofs

open Sys2Proof.Machine Sys2Proof.Spec

/-! ### Frames of the four instructions (R24) -/

/-- Settles O13. -/
theorem ldaFrame : Obligations.LdaFrame := by
  intro imm s t h
  rw [exec_eq_execWith] at h
  rcases execLdaWith_cases decided imm s with ⟨-, he⟩ | ⟨-, -, he⟩ <;>
    obtain rfl := Host.Outcome.next.inj (he.symm.trans h)
  · exact ⟨rfl, rfl, rfl, fun _ => rfl, .inr rfl⟩
  · exact ⟨rfl, rfl, znByte_reserved _ _, fun _ => rfl, .inl ⟨rfl, rfl, rfl⟩⟩

/-- Settles O14. -/
theorem taxInxFrame : Obligations.TaxInxFrame := by
  rintro i s t (rfl | rfl) h <;> rw [exec_eq_execWith] at h
  · rcases execTaxWith_cases decided s with ⟨-, he⟩ | ⟨-, he⟩ <;>
      obtain rfl := Host.Outcome.next.inj (he.symm.trans h)
    · exact ⟨rfl, rfl, rfl, fun _ => rfl, .inr rfl⟩
    · exact ⟨rfl, rfl, znByte_reserved _ _, fun _ => rfl, .inl ⟨rfl, rfl, rfl⟩⟩
  · rcases execInxWith_cases decided s with ⟨-, he⟩ | ⟨-, he⟩ <;>
      obtain rfl := Host.Outcome.next.inj (he.symm.trans h)
    · exact ⟨rfl, rfl, rfl, fun _ => rfl, .inr rfl⟩
    · exact ⟨rfl, rfl, znByte_reserved _ _, fun _ => rfl, .inl ⟨rfl, rfl, rfl⟩⟩

/-- Settles O15. -/
theorem brkFrame : Obligations.BrkFrame := by
  intro s t h
  rw [exec_eq_execWith] at h
  rcases execBrkWith_cases decided s with ⟨-, he⟩ | ⟨-, he⟩ <;>
    obtain rfl := Host.Outcome.next.inj (he.symm.trans h)
  · exact ⟨rfl, rfl, rfl, rfl, fun _ => rfl, .inr rfl⟩
  · exact ⟨rfl, rfl, rfl, rfl, fun _ => rfl, .inl ⟨rfl, rfl⟩⟩

/-! ### Which step is taken -/

/-- Settles O5: the count is a computation over the 256 bytes; the step is the case of a byte that does not
decode, where the fetch's advance succeeds. -/
theorem otherOpcodesFault : Obligations.OtherOpcodesFault := by
  refine ⟨decodeOp_eq_none_iff, by decide +kernel, fun s hr hpc hop => ?_⟩
  exact step_of_case (.unimplemented (pcInc_of_ne hpc) ((decodeOp_eq_none_iff _).mpr hop)) hr

/-- Settles O23. -/
theorem topOfMemoryFaultsFirst : Obligations.TopOfMemoryFaultsFirst := by
  intro s hr hpc
  have h : pcInc decided s.pc = .error .pcOverflow := hpc ▸ pcInc_decided_top
  exact step_of_case (.overflow h) hr

/-- Settles O18. -/
theorem stepIsTheLoopContract : Obligations.StepIsTheLoopContract := by
  intro c s hr
  obtain ⟨t, ht, hc⟩ := stepWith_cases c hr
  rw [ht, hc.eq_loopIteration]

/-- Settles O20. -/
theorem stepExistsExactlyWhenRunning : Obligations.StepExistsExactlyWhenRunning := by
  intro s
  simp only [step_eq_stepWith]
  refine ⟨⟨fun ⟨t, ht⟩ => (stepWith_next ht).1, fun hr => ?_⟩,
    fun h => stepWith_of_halted h _, fun h => stepWith_of_faulted h _⟩
  obtain ⟨t, ht, -⟩ := stepWith_cases decided hr
  exact ⟨t, ht⟩

/-- Settles O28: the program counter's policy is the only one a case of a step reads; where no step exists no
policy is read. -/
theorem onlyThePcPolicyMattersToAStep : Obligations.OnlyThePcPolicyMattersToAStep := by
  intro c c' s hc
  cases hr : s.runState with
  | running =>
    obtain ⟨t, ht, hcase⟩ := stepWith_cases c hr
    rw [ht, (hcase.of_pcTop hc).stepWith_eq hr]
  | halted => rw [stepWith_of_halted hr, stepWith_of_halted hr]
  | faulted => rw [stepWith_of_faulted hr, stepWith_of_faulted hr]

/-! ### What a step leads to -/

/-- Settles O21, by the three forms of a step. -/
theorem runStateAfterAStep : Obligations.RunStateAfterAStep := by
  intro s t h
  obtain ⟨hr, hcase⟩ := step_next h
  change (_ ↔ opcodeAt s = _ ∧ _) ∧ (_ → opcodeAt s ∈ _) ∧ _
  rcases hcase.fault_or_halt_or_goesOn with ⟨f, -, rfl⟩ | ⟨-, hop, rfl⟩ | ⟨-, -, hg⟩
  case inl =>
    exact ⟨⟨nofun, fun ⟨_, hpc⟩ => absurd hpc (Addr.ne_succ s.pc)⟩, nofun, fun _ => enterFault_eq f s⟩
  case inr.inl => exact ⟨⟨fun _ => ⟨hop, rfl⟩, fun _ => rfl⟩, nofun, nofun⟩
  case inr.inr =>
    have hrun : t.runState = .running := hg.latch.1.trans hr
    refine ⟨⟨fun hh => ?_, fun ⟨hop, _⟩ => ?_⟩, fun _ => hg.opcode, fun hf => ?_⟩
    · rw [hrun] at hh; cases hh
    · exact absurd (hop ▸ hg.opcode) (by decide)
    · rw [hrun] at hf; cases hf

/-- Settles O22: a step that ends Faulted took a fault, and each fault a step takes names its place. -/
theorem faultsOfAStep : Obligations.FaultsOfAStep := by
  intro s t hstep hf
  obtain ⟨hr, hcase⟩ := step_next hstep
  rcases hcase.fault_or_halt_or_goesOn with ⟨f, hfault, rfl⟩ | ⟨-, -, rfl⟩ | ⟨-, -, hg⟩
  case inl =>
    cases hfault with
    | fetch h => exact .inl ⟨rfl, .inl (eq_top_of_pcInc_error h)⟩
    | operand h hop h2 =>
      have htop := eq_top_of_pcInc_error h2
      exact .inl ⟨rfl, .inr ⟨by bv_omega, hop⟩⟩
    | opcode h hop => exact .inr ⟨rfl, ne_top_of_pcInc_decided h, (decodeOp_eq_none_iff _).mp hop⟩
  case inr.inl => cases hf
  case inr.inr => rw [hg.latch.1, hr] at hf; cases hf

/-- Settles O25: under the decided policy an advance that succeeds does not wrap. -/
theorem pcMovesByOneOrTwo : Obligations.PcMovesByOneOrTwo := by
  intro s t h
  obtain ⟨hr, hcase⟩ := step_next h
  change _ ∨ (_ ∧ opcodeAt s ≠ _ ∧ _) ∨ (_ ∧ opcodeAt s = _ ∧ _)
  rcases hcase.fault_or_halt_or_goesOn with ⟨f, -, rfl⟩ | ⟨hp, hop, rfl⟩ | ⟨hp, hp2, hg⟩
  case inl => exact .inl ⟨rfl, rfl⟩
  case inr.inl =>
    exact .inr (.inl ⟨nofun, hop ▸ by decide, succ_toNat (ne_top_of_pcInc_decided hp)⟩)
  case inr.inr =>
    have hne : t.runState ≠ .faulted := by rw [hg.latch.1, hr]; decide
    have h1 := succ_toNat (ne_top_of_pcInc_decided hp)
    by_cases hop : opcodeAt s = 0xA9#8
    · have h2 := succ_toNat (ne_top_of_pcInc_decided (hp2 hop))
      exact .inr (.inr ⟨hne, hop, by rw [hg.pc, if_pos hop, h2, h1]⟩)
    · exact .inr (.inl ⟨hne, hop, by rw [hg.pc, if_neg hop, h1]⟩)

/-! ### What a step depends on -/

/-- Settles O26: a case of a step does not mention the status byte, so it is the same case with another one;
the status byte after it is `update_zn` of the same value, or the byte as it was. -/
theorem flagsInfluenceNothing : Obligations.FlagsInfluenceNothing := by
  intro s t v hstep
  obtain ⟨hr, hcase⟩ := step_next hstep
  cases hcase with
  | overflow h => exact ⟨v, step_of_case (.overflow h) hr, rfl, nofun, fun _ => rfl⟩
  | unimplemented h hop => exact ⟨v, step_of_case (.unimplemented h hop) hr, rfl, nofun, fun _ => rfl⟩
  | operandOverflow h hop h2 =>
    exact ⟨v, step_of_case (.operandOverflow h hop h2) hr, rfl, nofun, fun _ => rfl⟩
  | brk h hop => exact ⟨v, step_of_case (.brk h hop) hr, rfl, nofun, fun _ => rfl⟩
  | tax h hop =>
    exact ⟨_, step_of_case (.tax h hop) hr, znByte_reserved _ _, fun _ => znByte_zn_bits _ _ _,
      fun hn => absurd hr hn⟩
  | inx h hop =>
    exact ⟨_, step_of_case (.inx h hop) hr, znByte_reserved _ _, fun _ => znByte_zn_bits _ _ _,
      fun hn => absurd hr hn⟩
  | lda h hop h2 =>
    exact ⟨_, step_of_case (.lda h hop h2) hr, znByte_reserved _ _, fun _ => znByte_zn_bits _ _ _,
      fun hn => absurd hr hn⟩

/-- Settles O27. -/
theorem registersDoNotSteerControl : Obligations.RegistersDoNotSteerControl := by
  intro c s s' t h hpc hmem hr hc hi
  obtain ⟨hrun, hcase⟩ := stepWith_next h
  obtain ⟨t', hcase', ht⟩ := hcase.of_sameControl ⟨hpc, hmem, hr, hc, hi⟩
  exact ⟨t', hcase'.stepWith_eq (hr.trans hrun), ht.pc, ht.mem, ht.latch⟩

/-! ### A word placed at the program counter (R112) -/

/-- Settles O17: the two bytes placed are the two the fetch reads. -/
theorem placedWordIsRun : Obligations.PlacedWordIsRun := by
  intro s nbits w i hr hwf hi
  obtain ⟨rest, hd⟩ := decode_of_decodeTableWord hi
  refine ⟨step_of_decode (rest := rest) hr ?_, fun addr h0 h1 => ?_, rfl⟩
  · rw [fetchBytes_withFetchWord hwf, hd]
  · rw [withFetchWord_eq, memRead1_memWrite1_ne h1, memRead1_memWrite1_ne h0]

end Sys2Proof.Proofs
end

section
/-! The invariant of the state, kept by every step and every operation of the host (spec 10_state.md R18, R20,
50_interfaces.md R107 to R113). -/

namespace Sys2Proof.Machine

open Sys2Proof.Spec

/-! ### States that have the invariant -/

/-- With the latch clear, only memory is left to check. -/
theorem StateInv.of_clear_latch {t : State} (hm : t.mem.wf = true) (hr : t.runState ≠ .faulted)
    (hc : t.faultCause = 0#3) (hi : t.faultInfo = 0x00#8) : StateInv t where
  memory := hm
  latched_iff := by simp [hc, hr]
  cause_listed := by simp [hc]
  info_of_none := fun _ => hi
  info_of_opcode := by simp [hc]
  info_of_mode := by simp [hc]
  info_of_top := by simp [hc]

/-- The invariant reads memory, the run state and the latch, nothing else. -/
theorem StateInv.of_same_latch {s t : State} (hs : StateInv s) (hm : t.mem.wf = true)
    (hl : SameRunAndLatch s t) : StateInv t := by
  obtain ⟨hr, hc, hi⟩ := hl
  obtain ⟨-, h1, h2, h3, h4, h5, h6⟩ := hs
  rw [← hr, ← hc] at h1
  rw [← hc] at h2
  rw [← hc, ← hi] at h3 h4 h5 h6
  exact ⟨hm, h1, h2, h3, h4, h5, h6⟩

theorem StateInv.clear_of_not_faulted {s : State} (hs : StateInv s) (hr : s.runState ≠ .faulted) :
    s.faultCause = 0#3 ∧ s.faultInfo = 0x00#8 := by
  have hc : s.faultCause = 0#3 := by
    by_contra hne
    exact hr (hs.latched_iff.mp hne)
  exact ⟨hc, hs.info_of_none hc⟩

/-- A fault that a step takes is latched with a listed cause and its payload. -/
theorem FaultCase.enterFault_inv {c : Config} {s : State} {f : Fault} (hf : FaultCase c s f)
    (hm : s.mem.wf = true) : StateInv (enterFault f s) := by
  cases hf with
  | fetch _ => constructor <;> simp [hm, faultCode, faultPayload]
  | operand _ _ _ => constructor <;> simp [hm, faultCode, faultPayload]
  | opcode _ hop => constructor <;> simp [hm, faultCode, faultPayload, hop]

/-! ### The invariant is kept -/

/-- A fault writes the latch it needs; a halt and an instruction that goes on find the latch clear and leave
it so. -/
theorem StateInv.of_stepWith {c : Config} {s t : State} (hs : StateInv s) (h : stepWith c s = .next t) :
    StateInv t := by
  obtain ⟨hr, hcase⟩ := stepWith_next h
  obtain ⟨hc, hi⟩ := hs.clear_of_not_faulted (by rw [hr]; decide)
  rcases hcase.fault_or_halt_or_goesOn with ⟨f, hf, rfl⟩ | ⟨-, -, rfl⟩ | ⟨-, -, hg⟩
  · exact hf.enterFault_inv hs.memory
  · exact .of_clear_latch hs.memory nofun hc hi
  · exact hs.of_same_latch (hg.mem ▸ hs.memory) hg.latch

theorem StateInv.of_runSteps {c : Config} {s : State} (hs : StateInv s) (n : Nat) :
    StateInv (runSteps c n s) :=
  runSteps_induct (fun _ _ hu h => hu.of_stepWith h) n hs

theorem powerOn_inv : StateInv powerOn := .of_clear_latch rfl nofun rfl rfl

/-- Reset clears the latch from any state. -/
theorem hostReset_inv {s : State} (hm : s.mem.wf = true) : StateInv (hostReset s) :=
  .of_clear_latch hm nofun rfl rfl

theorem StateInv.of_load {bytes : List Byte} {s t : State} (hs : StateInv s)
    (h : load bytes s = .done t ∨ load bytes s = .programTooLarge t) : StateInv t := by
  rcases load_cases bytes s with ⟨-, hl⟩ | ⟨-, hl⟩ <;> rw [hl] at h
  · obtain rfl : loadBytes bytes s = t := by simpa using h
    refine hs.of_same_latch (loadBytes_wf bytes hs.memory) ?_
    rw [loadBytes_eq_setMem]
    exact ⟨rfl, rfl, rfl⟩
  · obtain rfl : s = t := by simpa using h
    exact hs

theorem StateInv.of_run {c : Config} {s t : State} (hs : StateInv s)
    (h : run c s = .done t ∨ run c s = .programTooLarge t) : StateInv t := by
  rcases run_cases c s with ⟨-, -, hr⟩ | ⟨-, -, hr⟩ | ⟨-, hr⟩ | ⟨-, hr⟩ <;> rw [hr] at h
  case inr.inl =>
    obtain rfl : runSteps c runBound s = t := by simpa using h
    exact hs.of_runSteps _
  all_goals simp at h

theorem StateInv.of_loadAndRun {c : Config} {bytes : List Byte} {s t : State} (hs : StateInv s)
    (h : loadAndRun c bytes s = .done t ∨ loadAndRun c bytes s = .programTooLarge t) : StateInv t := by
  rcases loadAndRun_cases c bytes s with ⟨-, hl⟩ | ⟨-, hl⟩ <;> rw [hl] at h
  · exact (hostReset_inv (loadBytes_wf bytes hs.memory)).of_run h
  · obtain rfl : s = t := by simpa using h
    exact hs

end Sys2Proof.Machine

namespace Sys2Proof.Proofs

open Sys2Proof.Machine Sys2Proof.Spec

/-- Settles O29, by the three forms of a step. -/
theorem stepKeepsInv : Obligations.StepKeepsInv :=
  fun s _ hs h => hs.of_stepWith (step_eq_stepWith s ▸ h)

/-- Settles O30. -/
theorem resetHasInv : Obligations.ResetHasInv := .of_clear_latch rfl nofun rfl rfl

/-- Settles O31: power-on and reset clear the latch, a run keeps the invariant step by step, and every other
operation leaves the run state and the latch alone and memory canonical. -/
theorem hostKeepsInv : Obligations.HostKeepsInv := by
  intro c act s t hs h
  cases act with
  | load bytes => exact hs.of_load h
  | run => exact hs.of_run h
  | loadAndRun bytes => exact hs.of_loadAndRun h
  | powerOn =>
    obtain rfl : powerOn = t := by simpa [host] using h
    exact powerOn_inv
  | reset =>
    obtain rfl : hostReset s = t := by simpa [host] using h
    exact hostReset_inv hs.memory
  | writeReg r v =>
    obtain rfl : writeReg s r v = t := by simpa [host] using h
    exact hs.of_same_latch (writeReg_mem s r v ▸ hs.memory)
      ⟨writeReg_runState s r v, writeReg_faultCause s r v, writeReg_faultInfo s r v⟩
  | writeStatus v =>
    obtain rfl : s.setStatus v = t := by simpa [host] using h
    exact hs.of_same_latch hs.memory ⟨rfl, rfl, rfl⟩
  | writePc v =>
    obtain rfl : s.setPc v = t := by simpa [host] using h
    exact hs.of_same_latch hs.memory ⟨rfl, rfl, rfl⟩
  | writeCell addr v =>
    obtain rfl : memWrite1 s addr v = t := by simpa [host] using h
    exact hs.of_same_latch (memWrite1_wf hs.memory addr v) ⟨rfl, rfl, rfl⟩

/-- Settles O49: the two faults a step can take are latched with causes 1 and 3. -/
theorem noneAddressingNeverResolves : Obligations.NoneAddressingNeverResolves := by
  refine ⟨fun _ _ _ => rfl, rfl, fun s t hs h => ?_⟩
  rcases (step_next h).2.fault_or_halt_or_goesOn with ⟨f, hf, rfl⟩ | ⟨-, -, rfl⟩ | ⟨-, -, hg⟩
  · cases hf <;> simp [faultCode]
  · exact hs
  · exact hg.latch.2.1 ▸ hs

end Sys2Proof.Proofs
end

section
/-! Runs: what they keep, that they end under the decided policy, and that a long one never does
(spec 41_fetch_decode_execute.md R77 to R82). -/

namespace Sys2Proof.Machine

open Sys2Proof.Spec

/-! ### What one step keeps, in the form runs need -/

/-- The status byte after a step is the one before it, or `update_zn` of it. -/
theorem StepCase.status {c : Config} {s t : State} (h : StepCase c s t) :
    t.p = s.p ∨ ∃ v, t.p = znByte v s.p := by
  rcases h.fault_or_halt_or_goesOn with ⟨f, -, rfl⟩ | ⟨-, -, rfl⟩ | ⟨-, -, hg⟩
  · exact .inl rfl
  · exact .inl rfl
  · exact .inr hg.status

theorem StepCase.y_mem {c : Config} {s t : State} (h : StepCase c s t) : t.y = s.y ∧ t.mem = s.mem := by
  rcases h.fault_or_halt_or_goesOn with ⟨f, -, rfl⟩ | ⟨-, -, rfl⟩ | ⟨-, -, hg⟩
  · exact ⟨rfl, rfl⟩
  · exact ⟨rfl, rfl⟩
  · exact ⟨hg.y, hg.mem⟩

theorem StepCase.reserved {c : Config} {s t : State} (h : StepCase c s t) :
    t.p &&& 0x7D#8 = s.p &&& 0x7D#8 := by
  rcases h.status with hp | ⟨v, hp⟩ <;> rw [hp]
  exact znByte_reserved v s.p

/-- With the six reserved bits clear `update_zn` gives one of three bytes (R91 c). -/
theorem znByte_mem_three {p : Byte} (hp : p ∈ [0x00#8, 0x02#8, 0x80#8]) (v : Byte) :
    znByte v p ∈ [0x00#8, 0x02#8, 0x80#8] := by
  have hclear : p &&& 0x7D#8 = 0x00#8 := by
    revert p; decide
  rw [znByte, hclear]
  revert v; decide

/-! ### Runs as sequences of steps -/

theorem runSteps_add (c : Config) (m n : Nat) (s : State) :
    runSteps c (m + n) s = runSteps c n (runSteps c m s) := by
  induction m generalizing s with
  | zero => rw [Nat.zero_add]; rfl
  | succ m ih =>
    by_cases hr : s.runState = .running
    · obtain ⟨t, ht, -⟩ := stepWith_cases c hr
      rw [Nat.succ_add, runSteps_of_next ht, runSteps_of_next ht, ih]
    · rw [runSteps_of_not_running hr, runSteps_of_not_running hr, runSteps_of_not_running hr]

/-- A run that is going after some steps was going after every smaller number of steps. -/
theorem running_of_runSteps_running {c : Config} {s : State} {m n : Nat} (hle : m ≤ n)
    (h : (runSteps c n s).runState = .running) : (runSteps c m s).runState = .running := by
  by_contra hm
  rw [← Nat.add_sub_cancel' hle, runSteps_add, runSteps_of_not_running hm] at h
  exact hm h

theorem runSteps_y_mem (c : Config) (n : Nat) (s : State) :
    (runSteps c n s).y = s.y ∧ (runSteps c n s).mem = s.mem := by
  refine runSteps_induct (Q := fun t => t.y = s.y ∧ t.mem = s.mem) ?_ n ⟨rfl, rfl⟩
  rintro u v ⟨hy, hm⟩ h
  obtain ⟨hy', hm'⟩ := (stepWith_next h).2.y_mem
  exact ⟨hy'.trans hy, hm'.trans hm⟩

theorem runSteps_reserved (c : Config) (n : Nat) (s : State) :
    (runSteps c n s).p &&& 0x7D#8 = s.p &&& 0x7D#8 :=
  runSteps_induct (Q := fun t => t.p &&& 0x7D#8 = s.p &&& 0x7D#8)
    (fun _ _ hu h => (stepWith_next h).2.reserved.trans hu) n rfl

/-- A run that is still going has not touched the latch. -/
theorem latch_of_runSteps_running {c : Config} {n : Nat} {s : State}
    (hr : (runSteps c n s).runState = .running) : SameRunAndLatch s (runSteps c n s) := by
  refine runSteps_induct (Q := fun t => t.runState = .running → SameRunAndLatch s t) ?_ n
    (fun _ => ⟨rfl, rfl, rfl⟩) hr
  intro u v hu h hv
  obtain ⟨hur, hcase⟩ := stepWith_next h
  obtain ⟨hr1, hc1, hi1⟩ := hu hur
  obtain ⟨hr2, hc2, hi2⟩ := (hcase.goesOn_of_running hv).latch
  exact ⟨hr2.trans hr1, hc2.trans hc1, hi2.trans hi1⟩

/-- A halted end state has its break opcode just behind the program counter (R80). -/
theorem brk_behind_of_runSteps_halted {c : Config} {n : Nat} {s : State} (hr : s.runState = .running)
    (h : (runSteps c n s).runState = .halted) :
    memRead1 (runSteps c n s) ((runSteps c n s).pc - 1#16) = 0x00#8 := by
  refine runSteps_induct (Q := fun t => t.runState = .halted → memRead1 t (t.pc - 1#16) = 0x00#8) ?_ n
    (fun hh => ?_) h
  · intro u v _ hstep hv
    obtain ⟨hur, hcase⟩ := stepWith_next hstep
    rcases hcase.fault_or_halt_or_goesOn with ⟨f, -, rfl⟩ | ⟨-, hop, rfl⟩ | ⟨-, -, hg⟩
    · cases hv
    · have hpc : (afterBrk u).pc - 1#16 = u.pc := BitVec.add_sub_cancel u.pc 1#16
      rw [hpc]
      exact hop
    · rw [hg.latch.1, hur] at hv; cases hv
  · rw [hr] at hh; cases hh

/-! ### Runs that end: the program counter only rises under the decided policy -/

theorem pc_lt_of_step_running {s t : State} (h : stepWith decided s = .next t)
    (hr : t.runState = .running) : s.pc.toNat < t.pc.toNat := by
  rcases Proofs.pcMovesByOneOrTwo s t (step_eq_stepWith s ▸ h) with ⟨hf, -⟩ | ⟨-, -, hpc⟩ | ⟨-, -, hpc⟩
  · rw [hr] at hf; cases hf
  · omega
  · omega

/-- Each step that goes on leaves fewer addresses above the program counter. -/
theorem run_ends_within {k : Nat} {s : State} (hk : 0x10000 - s.pc.toNat ≤ k) :
    ∃ n, n ≤ 0x10000 - s.pc.toNat ∧ (runSteps decided n s).runState ≠ .running := by
  have hlt := s.pc.isLt
  induction k generalizing s with
  | zero => omega
  | succ k ih =>
    by_cases hr : s.runState = .running
    · obtain ⟨t, ht, -⟩ := stepWith_cases decided hr
      by_cases hrt : t.runState = .running
      · have hpc := pc_lt_of_step_running ht hrt
        obtain ⟨n, hn, hend⟩ := ih (s := t) (by omega) t.pc.isLt
        exact ⟨n + 1, by omega, by rwa [runSteps_of_next ht]⟩
      · exact ⟨1, by omega, by rwa [runSteps_of_next ht]⟩
    · exact ⟨0, Nat.zero_le _, hr⟩

/-! ### Runs that never end: a program counter that comes back -/

theorem SameControl.runSteps {c : Config} {s s' : State} (h : SameControl s s') (n : Nat) :
    SameControl (runSteps c n s) (runSteps c n s') := by
  induction n generalizing s s' with
  | zero => exact h
  | succ n ih =>
    by_cases hr : s.runState = .running
    · obtain ⟨t, ht, hcase⟩ := stepWith_cases c hr
      obtain ⟨t', hcase', htt'⟩ := hcase.of_sameControl h
      rw [runSteps_of_next ht, runSteps_of_next (hcase'.stepWith_eq (h.latch.1.trans hr))]
      exact ih htt'
    · have hr' : s'.runState ≠ .running := h.latch.1 ▸ hr
      rwa [runSteps_of_not_running hr, runSteps_of_not_running hr']

/-- Two moments of a run that is still going at both agree on what steers it as soon as the program counter
is the same: memory is never written, and the latch not before the end. -/
theorem sameControl_of_pc_eq {c : Config} {s : State} {i j : Nat}
    (hi : (runSteps c i s).runState = .running) (hj : (runSteps c j s).runState = .running)
    (hpc : (runSteps c j s).pc = (runSteps c i s).pc) :
    SameControl (runSteps c i s) (runSteps c j s) := by
  obtain ⟨hri, hci, hii⟩ := latch_of_runSteps_running hi
  obtain ⟨hrj, hcj, hij⟩ := latch_of_runSteps_running hj
  have hmi := (runSteps_y_mem c i s).2
  have hmj := (runSteps_y_mem c j s).2
  exact ⟨hpc, hmj.trans hmi.symm, hrj.trans hri.symm, hcj.trans hci.symm, hij.trans hii.symm⟩

/-- In 65537 moments of a run two have the same program counter. -/
theorem exists_pc_eq (c : Config) (s : State) :
    ∃ i j, i < j ∧ j ≤ 0x10000 ∧ (runSteps c j s).pc = (runSteps c i s).pc := by
  have hcard : Fintype.card (Fin 0x10000) < Fintype.card (Fin 0x10001) := by simp
  obtain ⟨i, j, hne, heq⟩ := Fintype.exists_ne_map_eq_of_card_lt
    (fun k : Fin 0x10001 => (runSteps c k.val s).pc.toFin) hcard
  have hpc : (runSteps c i.val s).pc = (runSteps c j.val s).pc := BitVec.toFin_inj.mp heq
  have hi := i.isLt
  have hj := j.isLt
  rcases Nat.lt_or_gt_of_ne (Fin.val_ne_of_ne hne) with hlt | hgt
  · exact ⟨i, j, hlt, by omega, hpc.symm⟩
  · exact ⟨j, i, hgt, by omega, hpc⟩

/-- A run whose moment `j` agrees with an earlier moment `i` on what steers it goes round for ever: its
moment `n` past `j` agrees with moment `n - j + i`. -/
theorem running_of_cycle {c : Config} {s : State} {i j : Nat} (hij : i < j)
    (hrun : (runSteps c j s).runState = .running)
    (hcycle : SameControl (runSteps c i s) (runSteps c j s)) (n : Nat) :
    (runSteps c n s).runState = .running := by
  induction n using Nat.strong_induction_on with
  | h n ih =>
    by_cases hle : n ≤ j
    · exact running_of_runSteps_running hle hrun
    · have hlate := hcycle.runSteps (c := c) (n - j)
      rw [← runSteps_add, ← runSteps_add, show j + (n - j) = n by omega] at hlate
      exact hlate.latch.1.trans (ih (i + (n - j)) (by omega))

/-- In a memory of INX a step under wrap goes on. -/
theorem running_of_all_inx {c : Config} {s t : State} (hc : c.pcTop = .wrap)
    (hmem : ∀ addr : Addr, memRead1 s addr = 0xE8#8) (h : stepWith c s = .next t) :
    t.runState = .running := by
  obtain ⟨hr, hcase⟩ := stepWith_next h
  obtain rfl := hcase.unique (.inx (pcInc_of_wrap hc _) (hmem _))
  exact hr

end Sys2Proof.Machine

namespace Sys2Proof.Proofs

open Sys2Proof.Machine Sys2Proof.Spec

/-- Settles O32. -/
theorem runsLeaveYAndMemory : Obligations.RunsLeaveYAndMemory := by
  intro c n s
  obtain ⟨hy, hm⟩ := runSteps_y_mem c n s
  exact ⟨hy, hm, runSteps_reserved c n s⟩

/-- Settles O33. -/
theorem statusStaysInThreeValues : Obligations.StatusStaysInThreeValues := by
  intro c n s hs
  refine runSteps_induct (Q := fun t => t.p ∈ [0x00#8, 0x02#8, 0x80#8]) (fun u v hu h => ?_) n hs
  rcases (stepWith_next h).2.status with hp | ⟨w, hp⟩ <;> rw [hp]
  · exact hu
  · exact znByte_mem_three hu w

/-- Settles O34. -/
theorem everyRunEnds : Obligations.EveryRunEnds := fun _ => run_ends_within le_rfl

/-- Settles O35: memory stays full of INX. -/
theorem underWrapARunCanGoOnForEver : Obligations.UnderWrapARunCanGoOnForEver := by
  intro c s hc hr hmem n
  refine (runSteps_induct (Q := fun t => t.runState = .running ∧ ∀ addr : Addr, memRead1 t addr = 0xE8#8)
    ?_ n ⟨hr, hmem⟩).1
  rintro u v ⟨-, hu⟩ h
  refine ⟨running_of_all_inx hc hu h, fun addr => ?_⟩
  rw [memRead1_congr u (stepWith_next h).2.y_mem.2, hu addr]

/-- Settles O36: of the program counters after 0 to 65536 steps two are the same, and from there the run
repeats itself. -/
theorem longRunsNeverEnd : Obligations.LongRunsNeverEnd := by
  intro c s hrun n
  obtain ⟨i, j, hij, hj, hpc⟩ := exists_pc_eq c s
  have hrj := running_of_runSteps_running hj hrun
  have hri := running_of_runSteps_running (by omega : i ≤ 0x10000) hrun
  exact running_of_cycle hij hrj (sameControl_of_pc_eq hri hrj hpc) n

/-- Settles O37. -/
theorem endStateOfARun : Obligations.EndStateOfARun := by
  rintro c s t hs ⟨hr, hh, n, rfl⟩
  obtain ⟨hy, hm⟩ := runSteps_y_mem c n s
  have hclear := (hs.of_runSteps n).clear_of_not_faulted (by rw [hh]; decide)
  exact ⟨brk_behind_of_runSteps_halted hr hh, hy, hm, hclear.1⟩

/-- Settles O38: the bound of the host's run is past the end of every run under the decided policy. -/
theorem runOfTheHost : Obligations.RunOfTheHost := by
  intro s
  refine ⟨fun hh => by simp [host, run, hh], fun hf => by simp [host, run, hf], fun hr => ?runs,
    fun c bytes => ⟨fun hlen => ?fits, fun hlen => ?tooLarge⟩⟩
  case runs =>
    obtain ⟨n, hn, hend⟩ := everyRunEnds s
    rcases run_cases decided s with ⟨-, hgo, -⟩ | ⟨-, hstop, hdone⟩ | ⟨hh, -⟩ | ⟨hf, -⟩
    · exact absurd (running_of_runSteps_running (hn.trans (Nat.sub_le _ _)) hgo) hend
    · exact ⟨_, runBound, hdone, hstop, rfl⟩
    · rw [hr] at hh; cases hh
    · rw [hr] at hf; cases hf
  case fits =>
    rcases load_cases bytes s with ⟨-, hl⟩ | ⟨hlong, -⟩
    · exact ⟨_, _, hl, rfl, by simp [host, loadAndRun, hl]⟩
    · omega
  case tooLarge =>
    rcases loadAndRun_cases c bytes s with ⟨hshort, -⟩ | ⟨-, hl⟩
    · omega
    · exact hl

end Sys2Proof.Proofs
end

section
/-! Memory, the 16-bit accesses at the top, the resolver and the two ports (spec 20_memory.md,
40_address_mode_resolver.md, 50_interfaces.md R102, R105). -/

namespace Sys2Proof.Machine

open Sys2Proof.Spec

/-! ### Canonical memories that read the same -/

theorem Memory.read_of_lt_head {b addr : Nat} {v : Byte} {m : Memory} (habove : m.allAbove b = true)
    (h : addr < b) : Memory.read ((b, v) :: m) addr = unlistedByte := by
  rw [Memory.read, if_neg h.ne, Memory.read_of_allAbove habove h.le]

/-- The first listed address of a canonical memory is listed by every canonical memory that reads the same:
no later, since it would read as unlisted there. -/
theorem Memory.head_le {b b' : Nat} {v v' : Byte} {m m' : Memory} (hv : v ≠ unlistedByte)
    (habove : m'.allAbove b' = true)
    (h : Memory.read ((b, v) :: m) b = Memory.read ((b', v') :: m') b) : b' ≤ b := by
  by_contra hlt
  rw [Memory.read_head, Memory.read_of_lt_head habove (by omega)] at h
  exact hv h

theorem Memory.eq_of_read_eq {m m' : Memory} (hm : m.wf = true) (hm' : m'.wf = true)
    (h : ∀ addr, addr < memSize → m.read addr = m'.read addr) : m = m' := by
  induction m generalizing m' with
  | nil =>
    match m' with
    | [] => rfl
    | (b', v') :: m' =>
      obtain ⟨hb', hv', -, -⟩ := Memory.wf_cons.mp hm'
      exact absurd (Memory.read_head.symm.trans (h b' hb').symm) hv'
  | cons e m ih =>
    obtain ⟨b, v⟩ := e
    obtain ⟨hb, hv, habove, hwf⟩ := Memory.wf_cons.mp hm
    match m' with
    | [] => exact absurd (Memory.read_head.symm.trans (h b hb)) hv
    | (b', v') :: m' =>
      obtain ⟨hb', hv', habove', hwf'⟩ := Memory.wf_cons.mp hm'
      obtain rfl : b = b' :=
        le_antisymm (Memory.head_le hv' habove (h b' hb').symm) (Memory.head_le hv habove' (h b hb))
      obtain rfl : v = v' := by simpa [Memory.read] using h b hb
      rw [ih hwf hwf' fun addr haddr => ?_]
      by_cases hle : addr ≤ b
      · rw [Memory.read_of_allAbove habove hle, Memory.read_of_allAbove habove' hle]
      · simpa [Memory.read, show addr ≠ b by omega] using h addr haddr

/-- Canonical memories that read the same at every address of the machine are the same list (log 20). -/
theorem mem_eq_of_memRead1_eq {s t : State} (hs : s.mem.wf = true) (ht : t.mem.wf = true)
    (h : ∀ addr : Addr, memRead1 s addr = memRead1 t addr) : s.mem = t.mem := by
  refine Memory.eq_of_read_eq hs ht fun addr haddr => ?_
  have hof : (BitVec.ofNat 16 addr).toNat = addr := Nat.mod_eq_of_lt haddr
  simpa only [memRead1, hof] using h (BitVec.ofNat 16 addr)

/-! ### The 16-bit accesses where the policy decides -/

theorem memRead2_top_fault {c : Config} (h : c.mem16Top = .fault) (s : State) :
    memRead2 c s 0xFFFF#16 = .error .mem16AtTop := by simp [memRead2, h]

theorem memWrite2_top_fault {c : Config} (h : c.mem16Top = .fault) (s : State) (w : Addr) :
    memWrite2 c s 0xFFFF#16 w = .error .mem16AtTop := by simp [memWrite2, h]

/-- Below the top, and everywhere under wrap, a 16-bit access cannot fault. -/
theorem no_mem16_fault {c : Config} {addr : Addr} (h : addr ≠ 0xFFFF#16 ∨ c.mem16Top = .wrap) :
    ¬ (addr = 0xFFFF#16 ∧ c.mem16Top = .fault) := by
  rintro ⟨ha, hc⟩
  rcases h with h | h
  · exact h ha
  · rw [hc] at h; cases h

theorem memRead2_of_ok {c : Config} {addr : Addr} (h : addr ≠ 0xFFFF#16 ∨ c.mem16Top = .wrap)
    (s : State) : memRead2 c s addr = .ok (wordAt s addr) := if_neg (no_mem16_fault h)

theorem memWrite2_of_ok {c : Config} {addr : Addr} (h : addr ≠ 0xFFFF#16 ∨ c.mem16Top = .wrap)
    (s : State) (w : Addr) : memWrite2 c s addr w = .ok (setWordAt s addr w) := if_neg (no_mem16_fault h)

/-- The next address as the statements write it. -/
theorem ite_top_eq_succ (addr : Addr) :
    (if addr = 0xFFFF#16 then 0x0000#16 else addr + 1#16) = addr + 1#16 := by
  split
  · next h => rw [h]; rfl
  · rfl

/-! ### The zero-page pointer (R69) -/

theorem zext16_eq_ofNat (v : Byte) : zext16 v = BitVec.ofNat 16 v.toNat := (BitVec.ofNat_toNat 16 v).symm

/-- The pointer read under either policy, on numbers. -/
theorem zpPtr16_toNat (c : Config) (s : State) (q : Byte) : (zpPtr16 c s q).toNat = pointerAt c s q := by
  cases hc : c.zpPtr with
  | linear =>
    have hhigh : BitVec.ofNat 16 q.toNat + 1#16 = BitVec.ofNat 16 (q.toNat + 1) :=
      (BitVec.ofNat_add q.toNat 1).symm
    simp only [zpPtr16, hc, wordAt_toNat, pointerAt, ptrHighAddr, zext16_eq_ofNat, hhigh]
  | wrapPage0 =>
    have hhigh : zext16 (add8 q 1#8) = BitVec.ofNat 16 ((q.toNat + 1) % 256) := by
      rw [zext16_eq_ofNat, add8_toNat]
      rfl
    simp only [zpPtr16, hc, cat16_toNat, pointerAt, ptrHighAddr, hhigh, zext16_eq_ofNat q]

theorem add8_eq_ofNat (v w : Byte) : add8 v w = BitVec.ofNat 8 ((v.toNat + w.toNat) % 256) := by
  apply BitVec.eq_of_toNat_eq
  rw [add8_toNat, BitVec.toNat_ofNat, Nat.mod_mod]

/-! ### The faults of the resolver, by the code of the mode -/

theorem modeCode_eq_nine_iff (m : Mode) : (modeCode m).toNat = 9 ↔ m = .noneAddressing := by
  cases m <;> decide

theorem modeCode_absolute_iff (m : Mode) :
    4 ≤ (modeCode m).toNat ∧ (modeCode m).toNat ≤ 6 ↔
      m = .absolute ∨ m = .absoluteX ∨ m = .absoluteY := by
  cases m <;> decide

/-- The resolver faults exactly for the tenth tag, and for the Absolute modes at 0xFFFF (R55). -/
theorem resolve_error_iff (c : Config) (s : State) (m : Mode) (p : Addr) (f : Fault) :
    resolve c s m p = .error f ↔
      (m = .noneAddressing ∧ f = .unsupportedAddressingMode .noneAddressing) ∨
      ((m = .absolute ∨ m = .absoluteX ∨ m = .absoluteY) ∧ f = .mem16AtTop ∧ p = 0xFFFF#16 ∧
        c.mem16Top = .fault) := by
  refine ⟨resolve_error, ?_⟩
  rintro (⟨rfl, rfl⟩ | ⟨rfl | rfl | rfl, rfl, rfl, hc⟩)
  · rfl
  all_goals simp [resolve, indexed, memRead2_top_fault hc]

/-! ### The resolver's port -/

theorem resolverPort_eq_ea_iff (c : Config) (s : State) (m : Mode) (p ea : Addr) :
    resolverPort c s (modeCode m) p = some (.ea ea) ↔ resolve c s m p = .ok ea := by
  rw [resolverPort_modeCode]
  cases resolve c s m p <;> simp

theorem resolverPort_eq_fault_iff (c : Config) (s : State) (m : Mode) (p : Addr) (info : Byte) :
    resolverPort c s (modeCode m) p = some (.fault info) ↔
      ∃ f, resolve c s m p = .error f ∧ faultPayload f = info := by
  rw [resolverPort_modeCode]
  cases resolve c s m p <;> simp

end Sys2Proof.Machine

namespace Sys2Proof.Proofs

open Sys2Proof.Machine Sys2Proof.Spec

/-- Settles O45. -/
theorem equalMemoriesAreEqualData : Obligations.EqualMemoriesAreEqualData :=
  fun _ _ hs ht h => mem_eq_of_memRead1_eq hs ht fun addr => (h addr).symm

/-- Settles O40: a byte with its top bit set is not zero; and `update_zn` reads the reserved bits only, which it
keeps. -/
theorem updateZnLaws : Obligations.UpdateZnLaws := by
  intro v s
  refine ⟨?_, ?_⟩
  · rw [zFlag_updateZn, nFlag_updateZn, isZero8_iff]
    rintro ⟨rfl, hn⟩
    cases hn
  · refine congrArg s.setStatus (?_ : znByte v (znByte v s.p) = znByte v s.p)
    rw [znByte, znByte_reserved]
    rfl

/-- Settles O44. -/
theorem wordAccessAtTheTop : Obligations.WordAccessAtTheTop := by
  intro c s w
  refine ⟨fun hc => ⟨memRead2_top_fault hc s, memWrite2_top_fault hc s w⟩, fun hc hs => ?_⟩
  have hread := memRead1_setWordAt hs 0xFFFF#16 w
  rw [← ite_top_eq_succ, if_pos rfl] at hread
  refine ⟨⟨_, memRead2_of_ok (.inr hc) s, wordAt_toNat s 0xFFFF#16⟩,
    _, memWrite2_of_ok (.inr hc) s w, ?_, ?_, fun other htop hzero => ?_⟩ <;> rw [hread]
  · rw [if_pos rfl, lowByte_toNat]
  · rw [if_neg (by decide), if_pos rfl, highByte_toNat]
  · rw [if_neg htop, if_neg hzero]

/-- Settles O47. -/
theorem absoluteModes : Obligations.AbsoluteModes := by
  intro c s p
  refine ⟨fun hp => ?completes, fun hp hc => ?faults⟩
  case completes =>
    have hr := memRead2_of_ok hp s
    refine ⟨wordAt s p, add16 (wordAt s p) (zext16 s.x), add16 (wordAt s p) (zext16 s.y), ?_, hr, ?_, ?_,
      ?_, ?_⟩
    · rw [ite_top_eq_succ, wordAt_toNat]
    · simp [resolve, hr, indexed]
    · rw [add16_toNat, zext16_toNat]
    · simp [resolve, hr, indexed]
    · rw [add16_toNat, zext16_toNat]
  case faults =>
    have hr : memRead2 c s p = .error .mem16AtTop := hp ▸ memRead2_top_fault hc s
    simp [resolve, hr, indexed]

/-- Settles O48. -/
theorem indirectModes : Obligations.IndirectModes := by
  intro c s p
  refine ⟨⟨_, rfl, ?_⟩, ⟨_, rfl, ?_⟩⟩
  · rw [zpPtr16_toNat, add8_eq_ofNat, readReg_x]
  · rw [add16_toNat, zext16_toNat, zpPtr16_toNat, readReg_y]

/-- Settles O50: the port passes on what the resolver answers for the tag. -/
theorem resolverPortAnswers : Obligations.ResolverPortAnswers := by
  intro c s code p
  refine ⟨fun h => by rw [resolverPort, modeOfCode_eq_none h], ?_⟩
  rintro m rfl
  refine ⟨resolverPort_eq_ea_iff c s m p, fun info => ?_, by rw [resolverPort_modeCode]; nofun⟩
  rw [resolverPort_eq_fault_iff, modeCode_eq_nine_iff, ← and_assoc, modeCode_absolute_iff]
  constructor
  · rintro ⟨f, hf, rfl⟩
    rcases (resolve_error_iff c s m p f).mp hf with ⟨hm, rfl⟩ | ⟨hm, rfl, hp, hc⟩
    · exact .inl ⟨hm, rfl⟩
    · exact .inr ⟨hm, hp, hc, rfl⟩
  · rintro (⟨hm, rfl⟩ | ⟨hm, hp, hc, rfl⟩)
    · exact ⟨_, (resolve_error_iff c s m p _).mpr (.inl ⟨hm, rfl⟩), rfl⟩
    · exact ⟨_, (resolve_error_iff c s m p _).mpr (.inr ⟨hm, rfl, hp, hc⟩), rfl⟩

/-- Settles O59: the port passes on what the byte and word accesses do. -/
theorem memoryPortAnswers : Obligations.MemoryPortAnswers := by
  intro c s addr wdata hs
  refine ⟨⟨_, rfl, zext16_toNat _⟩, ⟨_, rfl, rfl, fun other => ?byte⟩, fun ha hc => ?fault, fun hok => ?word⟩
  case byte =>
    rw [memRead1_memWrite1 hs, apply_ite BitVec.toNat, lowByte_toNat]
  case fault =>
    simp [ha, memoryPort, memRead2_top_fault hc, memWrite2_top_fault hc]
  case word =>
    rw [ite_top_eq_succ]
    refine ⟨⟨wordAt s addr, by rw [memoryPort, memRead2_of_ok hok], wordAt_toNat s addr⟩,
      setWordAt s addr wdata, by rw [memoryPort, memWrite2_of_ok hok], rfl, fun other => ?_⟩
    rw [memRead1_setWordAt hs]
    simp only [apply_ite BitVec.toNat, lowByte_toNat, highByte_toNat]

end Sys2Proof.Proofs
end

section
/-! The host's operations: power-on, reset, load and the field writes (spec 50_interfaces.md R107 to R112,
70_reset_and_hazards.md R135 to R142, R147). -/

namespace Sys2Proof.Machine

open Sys2Proof.Spec

/-! ### What reset reads and writes (R136, R137) -/

/-- Reset depends on Y and memory alone. -/
theorem hostReset_congr {s t : State} (hy : s.y = t.y) (hm : s.mem = t.mem) :
    hostReset s = hostReset t := by
  apply State.ext_fields <;> simp [hy, hm, wordAt, memRead1]

theorem hostReset_hostReset (s : State) : hostReset (hostReset s) = hostReset s := hostReset_congr rfl rfl

/-! ### What `load` leaves in memory (R108) -/

/-- Every cell after `load`: the vector wins over the copy (D12). -/
theorem memRead1_loadBytes {bytes : List Byte} {s : State} (hs : s.mem.wf = true)
    (hlen : bytes.length ≤ 0x8000) (addr : Addr) :
    memRead1 (loadBytes bytes s) addr =
      if addr = 0xFFFC#16 then 0x00#8
      else if addr = 0xFFFD#16 then 0x80#8
      else if addr.toNat < 0x8000 then memRead1 s addr
      else (bytes[addr.toNat - 0x8000]?).getD (memRead1 s addr) := by
  have hcopy := memRead1_writeBytes bytes hs loadBase addr
    (show 0x8000 + bytes.length ≤ 0x10000 by omega)
  rw [loadBytes, memRead1_setWordAt (writeBytes_wf bytes hs _), hcopy]
  change (if addr = 0xFFFC#16 then 0x00#8 else if addr = 0xFFFD#16 then 0x80#8
    else if 0x8000 ≤ addr.toNat then (bytes[addr.toNat - 0x8000]?).getD (memRead1 s addr)
    else memRead1 s addr) = _
  simp only [← Nat.not_lt, ite_not]

/-- Loading the same bytes again finds every cell as it would leave it (R147 e). -/
theorem loadBytes_loadBytes {bytes : List Byte} {s : State} (hs : s.mem.wf = true)
    (hlen : bytes.length ≤ 0x8000) :
    loadBytes bytes (loadBytes bytes s) = loadBytes bytes s := by
  have hwf := loadBytes_wf bytes hs
  have hmem : (loadBytes bytes (loadBytes bytes s)).mem = (loadBytes bytes s).mem := by
    refine mem_eq_of_memRead1_eq (loadBytes_wf bytes hwf) hwf fun addr => ?_
    rw [memRead1_loadBytes hwf hlen, memRead1_loadBytes hs hlen]
    split_ifs
    · rfl
    · rfl
    · rfl
    · cases bytes[addr.toNat - 0x8000]? <;> rfl
  rw [loadBytes_eq_setMem bytes (loadBytes bytes s), hmem]
  rfl

/-- `load` that answers done has copied a program that fits. -/
theorem load_done {bytes : List Byte} {s t : State} (h : load bytes s = .done t) :
    bytes.length ≤ 0x8000 ∧ t = loadBytes bytes s := by
  rcases load_cases bytes s with ⟨hlen, hl⟩ | ⟨-, hl⟩ <;> rw [hl] at h <;> cases h
  exact ⟨hlen, rfl⟩

/-- Reset after `load` starts at the load base. -/
theorem hostReset_loadBytes_pc (bytes : List Byte) {s : State} (hs : s.mem.wf = true) :
    (hostReset (loadBytes bytes s)).pc = loadBase := by
  rw [hostReset_pc, loadBytes, wordAt_setWordAt (writeBytes_wf bytes hs _)]

end Sys2Proof.Machine

namespace Sys2Proof.Proofs

open Sys2Proof.Machine Sys2Proof.Spec

/-- Settles O51. -/
theorem powerOnZeroesEverything : Obligations.PowerOnZeroesEverything :=
  fun _ _ => ⟨powerOn, rfl, rfl, rfl, rfl, rfl, rfl, fun _ => rfl, rfl, rfl, rfl⟩

/-- Settles O52. -/
theorem resetLoadsTheVector : Obligations.ResetLoadsTheVector := by
  refine ⟨fun c s => ⟨hostReset s, rfl, rfl, rfl, rfl, ?_, rfl, rfl, rfl⟩, reset_eq_hostReset_powerOn⟩
  exact wordAt_toNat s resetVector

/-- Settles O54: the second reset sees the Y and the memory it depends on. -/
theorem resetIsIdempotent : Obligations.ResetIsIdempotent := by
  intro s a x y p pc
  refine ⟨hostReset_hostReset s, ?_⟩
  calc hostReset { hostReset s with a := a, x := x, y := y, p := p, pc := pc }
      = hostReset { s with y := y } := hostReset_congr rfl rfl
    _ = { hostReset s with y := y } := rfl

/-- Settles O55. -/
theorem loadCopiesThenWritesTheVector : Obligations.LoadCopiesThenWritesTheVector := by
  intro c bytes s hs
  rcases load_cases bytes s with ⟨hlen, hl⟩ | ⟨hlen, hl⟩
  · refine ⟨fun _ => ⟨_, hl, ?_, memRead1_loadBytes hs hlen⟩, fun hlong => by omega⟩
    rw [loadBytes_eq_setMem]
    rfl
  · exact ⟨fun hshort => by omega, fun _ => hl⟩

/-- Settles O56. -/
theorem loadTwiceIsLoadOnce : Obligations.LoadTwiceIsLoadOnce := by
  intro bytes s t u hs ht hu
  obtain ⟨hlen, rfl⟩ := load_done ht
  obtain ⟨-, rfl⟩ := load_done hu
  exact loadBytes_loadBytes hs hlen

/-- Settles O57: the vector just written is the one reset reads. -/
theorem bootState : Obligations.BootState := by
  intro bytes t ht
  obtain ⟨-, rfl⟩ := load_done ht
  have hy : (hostReset (loadBytes bytes powerOn)).y = 0x00#8 := by
    rw [hostReset_y, loadBytes_eq_setMem]
    rfl
  exact ⟨hostReset_loadBytes_pc bytes powerOn_inv.memory, rfl, rfl, hy, rfl, rfl, rfl, rfl⟩

/-- Settles O58. -/
theorem hostWritesAreReadBack : Obligations.HostWritesAreReadBack := by
  intro c s r v w addr hs
  refine ⟨⟨writeReg s r v, rfl, memRead1_writeReg s r v, ?latch, writeReg_p s r v, writeReg_pc s r v,
    fun q => readReg_writeReg s r q v⟩, rfl, rfl, ?cell⟩
  case latch => exact ⟨writeReg_runState s r v, writeReg_faultCause s r v, writeReg_faultInfo s r v⟩
  case cell =>
    exact ⟨_, rfl, rfl, rfl, ⟨rfl, rfl, rfl⟩, fun other => memRead1_memWrite1 hs addr other v⟩

end Sys2Proof.Proofs
end
